-- ==== Sys2Proof/Word.lean ====
section
/-! DEFINITION. The unit of everything the block handles: a byte, and a sequence of bytes (R10, R11). -/

namespace Sys2Proof

/-- A byte: an unsigned integer from 0 to 255, bit 7 the most significant (R10, R12). -/
abbrev Byte := BitVec 8

end Sys2Proof
end

