-- ==== Sys2Proof/Config.lean ====
section
/-! DEFINITION. What an implementation or the environment fixes: the parameters of R9, the shape of the
channel's answers (R151, R166), and the free values, constants without a body, so that no proof can see what
they are. -/

namespace Sys2Proof

/-- How one `ChanRead()` goes (R166, D15). Any of the three may happen at any read, whatever is pending
(log 8, DESIGN CHOICE on the form, safe). -/
inductive ReadDraw where
  /-- While the read blocks the peer's `arrivals` come in, and the read returns the next byte of the inbound
  stream, or no byte where the stream is still empty. -/
  | next (arrivals : List Byte)
  /-- The read returns without a byte and without failing. -/
  | noByte
  /-- The channel reports a read failure. -/
  | error
  deriving DecidableEq, Repr, Inhabited

/-- How one `ChanWrite(s)` goes (R151, U4). -/
inductive WriteDraw where
  /-- The channel accepts all the bytes, in order. -/
  | ok
  /-- The write fails after `count` bytes went out; the block cannot see the number (U10, log 10). -/
  | error (count : Nat)
  deriving DecidableEq, Repr, Inhabited

namespace Config

/-- `HEX_LOWER_OK` (R9, D11): whether `DEC` accepts lowercase checksum digits. -/
def hexLowerOk : Bool := false

/-- `CK_REDUCE` (R9, D9): the ways to bring the raw checksum into one byte; the spec has one. -/
inductive CkReduce where
  | mod256
  deriving DecidableEq, Repr

/-- The chosen reduction (R113, C4; UNVERIFIED against a device, U2, log 17). -/
def ckReduce : CkReduce := .mod256

/-- `RX_TIMEOUT` (R9, R212, D14): the fixed timeout `EXEC` gives to `RCV`. The spec gives no value (log 18). -/
opaque rxTimeout : Nat

/-- Free value: `A_BID` where R47 leaves it unspecified, for the n-th draw (log 2). -/
opaque freeBid : Nat → List Byte
/-- Free value: `A_CMD` where R47 leaves it unspecified (log 2). -/
opaque freeCmd : Nat → List Byte
/-- Free value: `A_DAT` where R47 leaves it unspecified (log 2). -/
opaque freeDat : Nat → List Byte
/-- Free value: `A_TMO` where R47 leaves it unspecified (log 2). -/
opaque freeTmo : Nat → Nat
/-- Free value: `OP` where R47 leaves it unspecified (log 2). -/
opaque freeOp : Nat → BitVec 2
/-- Free value: `REJ_CODE` before the first rejection (R216 gives none; log 3). -/
opaque freeRej : Byte
/-- Free value: by how much a sample of `Elapsed()` exceeds the last one, where no sample is scripted
(R165, U13, log 5). -/
opaque freeTick : Nat → Nat
/-- Free value: how a read goes where no answer is scripted (R166, U9, U12, log 5). -/
opaque freeRead : Nat → ReadDraw
/-- Free value: how a write goes where no outcome is scripted (R151, log 5). -/
opaque freeWrite : Nat → WriteDraw
/-- Free value: the pending input of a channel that has reported an error (U3, log 9). -/
opaque freePending : Nat → List Byte

end Config

end Sys2Proof
end

