-- ==== Sys2Proof/Machine/Constants.lean ====
section
/-! DEFINITION. The numeric literals of the source, each once under a name (R8, U1: unaudited, log 24), so that
an audit can change one in one place. -/

namespace Sys2Proof.Machine

/-- `SEP`, the comma (R81). -/
def sep : Byte := 0x2C
/-- `DELIM`, line feed (R81). -/
def delim : Byte := 0x0A
/-- NUL, the payload character below the printable range (R80, C1). -/
def nul : Byte := 0x00
/-- The least printable payload character, space (R80). -/
def payloadLo : Byte := 0x20
/-- The greatest printable payload character, tilde (R80). -/
def payloadHi : Byte := 0x7E
/-- The success response code, the character "0" (R8, R95). -/
def codeOk : Byte := 0x30
/-- The sentinel command echo "TMO" (R8, R95, R197). -/
def tmoEcho : List Byte := [0x54, 0x4D, 0x4F]

/-- `BID_LEN` (R8). -/
def bidLen : Nat := 1
/-- `CMD_LEN` (R8). -/
def cmdLen : Nat := 3
/-- `DAT_LEN` (R8). -/
def datLen : Nat := 8
/-- `OUT_LEN` (R8). -/
def outLen : Nat := 18
/-- `IN_LEN` (R8). -/
def inLen : Nat := 20
/-- `ENC_REGION` (R8). -/
def encRegion : Nat := 15
/-- `DEC_REGION` (R8). -/
def decRegion : Nat := 17

end Sys2Proof.Machine
end

