-- ==== Sys2Proof/Machine/Primitives.lean ====
section
/-! DEFINITION. The shared primitives (40_primitives.md, R110 to R117) and the hexadecimal digits of R86 to R88:
pure functions on bytes and byte sequences. -/

namespace Sys2Proof.Machine

/-- `s[a..b)`, the bytes at indices `a` up to but not including `b` (R11). -/
def slice (s : List Byte) (a b : Nat) : List Byte := (s.drop a).take (b - a)

/-- `s[i]` (R11); every use stands under a check that `i` is an index of `s`. -/
def byteAt (s : List Byte) (i : Nat) : Byte := s.getD i 0

/-- The `n` bytes of a frame word `w`, byte 0 the most significant (R12, R83, R84). -/
def wordBytes (n w : Nat) : List Byte :=
  (List.range n).map fun i => BitVec.ofNat 8 (w >>> (8 * (n - 1 - i)))

/-- `IsPayloadChar(b)` (R80, R110). -/
def isPayloadChar (b : Byte) : Bool :=
  b == nul || (payloadLo.toNat ≤ b.toNat && b.toNat ≤ payloadHi.toNat)

/-- `RegionSum(s)`, exact, on the naturals (R111). -/
def regionSum (s : List Byte) : Nat := (s.map BitVec.toNat).sum

/-- `SUM`, the running sum as the 16-bit register holds it: 0 at the start, then each byte zero-extended and
added (R15, R40, R117). -/
def sumRegister (s : List Byte) : BitVec 16 :=
  s.foldl (fun acc b => acc + b.setWidth 16) 0

/-- `hi`: bits 15:8 of the sum (R112). -/
def sumHi (sum : Nat) : Nat := (sum >>> 8) &&& 0xFF

/-- `lo`: bits 7:0 of the sum (R112). -/
def sumLo (sum : Nat) : Nat := sum &&& 0xFF

/-- `raw = 0xFF - (hi + lo)`, an integer that may be negative (R112). -/
def rawChecksum (sum : Nat) : Int := 0xFF - ((sumHi sum : Int) + (sumLo sum : Int))

/-- The reduction of the raw value to one byte: the mathematical modulus (R113). -/
def reduceRaw (how : Config.CkReduce) (raw : Int) : Byte :=
  match how with
  | .mod256 => BitVec.ofNat 8 (raw % 256).toNat

/-- `Checksum(s)` (R114). -/
def checksum (s : List Byte) : Byte :=
  reduceRaw Config.ckReduce (rawChecksum (sumRegister s).toNat)

/-- `HEXCHAR(n)` (R86). -/
def hexChar (n : BitVec 4) : Byte :=
  if n.toNat < 10 then 0x30 + n.setWidth 8 else 0x41 + (n.setWidth 8 - 10)

/-- `HEX2(c)`: two digits, the more significant first (R87, D10). -/
def hex2 (c : Byte) : List Byte := [hexChar (c.extractLsb' 4 4), hexChar (c.extractLsb' 0 4)]

/-- `ChecksumDigits(s)` (R115). -/
def checksumDigits (s : List Byte) : List Byte := hex2 (checksum s)

/-- `up(z)`: the uppercase of "a" to "f", any other byte itself (R88, R194). -/
def upperHex (z : Byte) : Byte :=
  if 0x61 ≤ z.toNat ∧ z.toNat ≤ 0x66 then z - 0x20 else z

/-- `DigitsMatch(x, y, digits)` for either value of `HEX_LOWER_OK` (R88, R194, D11). -/
def digitsMatch (lowerOk : Bool) (x y : Byte) (digits : List Byte) : Bool :=
  if lowerOk then [upperHex x, upperHex y] == digits else [x, y] == digits

/-- The checksum-covered region of an outbound frame (R133). -/
def outRegion (bid cmd dat : List Byte) : List Byte :=
  bid ++ [sep] ++ cmd ++ [sep] ++ dat ++ [sep]

/-- The outbound frame over a region: the region, its digits, the delimiter (R134). -/
def outFrame (bid cmd dat : List Byte) : List Byte :=
  outRegion bid cmd dat ++ checksumDigits (outRegion bid cmd dat) ++ [delim]

end Sys2Proof.Machine
end

