-- ==== Sys2Proof/Syntax.lean ====
section
/-! DEFINITION. The instructions: one constructor per row of spec/opcode_table.json (R90, R99, R101), and the
lines of a host script (R99, R275), of which instructions are one kind. -/

namespace Sys2Proof

/-- What spec/opcode_table.json lists: the three operations and the reserved code of R90, the two host steps,
and the two wire formats of R82. -/
inductive Instr where
  /-- `OP = 00` (R130). -/
  | enc
  /-- `OP = 01` (R160). -/
  | rcv
  /-- `OP = 10` (R190). -/
  | dec
  /-- `OP = 11`, reserved (R93). -/
  | reserved
  /-- The host's transmit step (R150); it has no code. -/
  | send
  /-- The host's exchange (R100, R210); it has no code. -/
  | exec (boardId commandCode requestData expectedCommandEcho : List Byte) (expectedEchoData : Option (List Byte))
  /-- A frame word of format `OUT18` (R83): board `b`, command `c`, data `d`, checksum digits `h`, `l`. -/
  | out18 (b : Byte) (c d : List Byte) (h l : Byte)
  /-- A frame word of format `IN20` (R84): board `b`, separators `s1` to `s4`, command echo `c`, data `d`,
  response code `k`, checksum digits `h`, `l`. -/
  | in20 (b s1 : Byte) (c : List Byte) (s2 : Byte) (d : List Byte) (s3 k s4 h l : Byte)
  deriving DecidableEq, Repr

/-- The host checks of a `CHK` line (R99, R213 to R217). -/
inductive Check where
  /-- The response's board id against `A_BID` (R21, R213). -/
  | bid
  /-- The response code against the success sentinel (R214). -/
  | code
  /-- The command echo against the given bytes (R215). -/
  | cmd (expected : List Byte)
  /-- The data field against the given bytes (R217). -/
  | dat (expected : List Byte)
  deriving DecidableEq, Repr

/-- The registers the host may read (R45, R275). -/
inductive HostReg where
  | aBid | aCmd | aDat | txbuf | txv | rxState | rxBuf | rBid | rCmd | rDat | rCode | rv | rTmo | busy | status
  deriving DecidableEq, Repr

/-- What the world outside the block does that is no row of the table (R45, R99, R260, R75). There is no act that drains
the channel: how a host takes stale bytes from it before a `SEND` "by its own means" (R268) the spec leaves open (N14), and
in this model only `RCV` takes them (log 28, DESIGN CHOICE). -/
inductive HostAct where
  /-- `SET A_BID = v`. -/
  | setBid (v : List Byte)
  /-- `SET A_CMD = v`. -/
  | setCmd (v : List Byte)
  /-- `SET A_DAT = v`. -/
  | setDat (v : List Byte)
  /-- `SET A_TMO = n`. -/
  | setTmo (n : Nat)
  /-- `CHK`: one check, or several combined on the line (R99). -/
  | chk (first : Check) (more : List Check)
  /-- The host reads a register. -/
  | read (r : HostReg)
  /-- The peer sends bytes, any bytes (R7, U12). -/
  | peer (bytes : List Byte)
  /-- The platform's reset event (R260). -/
  | reset
  deriving DecidableEq, Repr

/-- One line of the script that State holds (log 1). -/
inductive Move where
  /-- A coded instruction: an operation code with the start strobe, or a frame word crossing the channel. -/
  | word (bytes : List Byte)
  /-- `SEND`, which has no code. -/
  | send
  /-- `EXEC`, which has no code. -/
  | exec (boardId commandCode requestData expectedCommandEcho : List Byte) (expectedEchoData : Option (List Byte))
  /-- A line that is no row of the table. -/
  | act (a : HostAct)
  /-- The host looks on while the block, or the exchange in flight, takes one turn (R272). -/
  | turn
  /-- The host waits until the operation and the exchange in flight are over (R233). -/
  | wait
  deriving DecidableEq, Repr

end Sys2Proof
end

