-- ==== Sys2Proof/Machine/State.lean ====
section
/-! DEFINITION. Everything the spec gives the machine, as plain data (10_state.md), with what R44 says a model
must carry of the channel and what R20, R41, R45 and R216 call host state; the reasons a step can stop; and the
state after reset. -/

namespace Sys2Proof.Machine

/-- `RX_STATE` (R27, R161). -/
inductive RxState where
  | idle | reading | complete | timedOut | failed
  deriving DecidableEq, Repr

/-- The results of R91: codes 0 to 6 are the block's, 7 to 11 the host's. -/
inductive ResultCode where
  | ok | invalidLength | invalidCharacter | transportRead | timeoutError | lengthMismatch | checksumMismatch
  | transportWrite | boardMismatch
  /-- `DeviceRejected(code)` carries the response code (R15, R91). -/
  | deviceRejected (code : Byte)
  | commandMismatch | echoMismatch
  deriving DecidableEq, Repr

/-- The DecodedResponse: `R_BID`, `R_CMD`, `R_DAT`, `R_CODE` (R32 to R35). -/
structure Response where
  bid : Byte
  cmd : List Byte
  dat : List Byte
  code : Byte
  deriving DecidableEq, Repr

/-- The registers of the block (R20). -/
structure Block where
  /-- `A_BID` (R21). -/
  aBid : List Byte
  /-- `A_CMD` (R22). -/
  aCmd : List Byte
  /-- `A_DAT` (R23). -/
  aDat : List Byte
  /-- `A_TMO` (R24). -/
  aTmo : Nat
  /-- `TXBUF` (R25), absent while `TXV = 0` (R26). -/
  txbuf : Option (List Byte)
  /-- `TXV` (R26). -/
  txv : Bool
  /-- `RX_STATE` (R27). -/
  rxState : RxState
  /-- `RX_BUF` (R28). -/
  rxBuf : List Byte
  /-- `RX_TMO` (R30). -/
  rxTmo : Nat
  /-- `RX_LASTE` (R31). -/
  rxLastE : Nat
  /-- `R_BID`, `R_CMD`, `R_DAT`, `R_CODE` (R32 to R35), absent while `RV = 0` (R36). -/
  resp : Option Response
  /-- `RV` (R36). -/
  rv : Bool
  /-- `R_TMO` (R36, R197). -/
  rTmo : Bool
  /-- `OP` (R37). -/
  op : BitVec 2
  /-- `BUSY` (R37). -/
  busy : Bool
  /-- `STATUS` (R39). -/
  status : ResultCode
  deriving DecidableEq, Repr

/-- The channel as the block and the host see it (R44, R61, R165, R166). -/
structure Channel where
  /-- Bytes the peer has sent and `RCV` has not read, in arrival order (R44, R75). -/
  pending : List Byte
  /-- How the coming reads go; past its end the outcome is free (R166, log 5). -/
  answers : List ReadDraw
  /-- How the coming writes go; past its end the outcome is free (R151, log 5). -/
  writes : List WriteDraw
  /-- The coming samples of `Elapsed()`; past its end they are free (R165, log 5). -/
  clock : List Nat
  /-- The channel has reported an error: its pending input is unconstrained (U3, log 9). -/
  suspect : Bool
  /-- What has gone out to the peer (R61, R151). -/
  sent : List Byte
  deriving DecidableEq, Repr

/-- The host's place in its sequence (R41, R210). -/
inductive Phase where
  | encode | send | receive | await | decode | validate
  deriving DecidableEq, Repr

/-- An exchange in flight: the operands of `EXEC`, of which the host keeps its own copy (R266), and its place. -/
structure Exchange where
  boardId : List Byte
  commandCode : List Byte
  requestData : List Byte
  expectedCommandEcho : List Byte
  expectedEchoData : Option (List Byte)
  phase : Phase
  deriving DecidableEq, Repr

/-- Which operand registers the host has written since reset (R48, R262): read by Safety.lean only (log 2). -/
structure Written where
  bid : Bool
  cmd : Bool
  dat : Bool
  tmo : Bool
  deriving DecidableEq, Repr

/-- What a host read of a register gives. -/
inductive RegValue where
  | bytes (v : List Byte)
  | flag (b : Bool)
  | rx (s : RxState)
  | code (c : ResultCode)
  deriving DecidableEq, Repr

/-- Host state (R20, R41, R216). -/
structure HostSide where
  /-- The coming lines of the script (R99, log 1). -/
  script : List Move
  /-- The exchange in flight (R210). -/
  exchange : Option Exchange
  /-- `REJ_CODE` (R216). -/
  rejCode : Byte
  /-- What the last host step returned; `none`: none has returned (R150, R210). -/
  result : Option ResultCode
  /-- The data field the last successful `EXEC` returned (R218). -/
  data : Option (List Byte)
  /-- What the host last read (R275). -/
  seen : Option RegValue
  written : Written
  deriving DecidableEq, Repr

/-- The whole machine. -/
structure State where
  blk : Block
  chan : Channel
  host : HostSide
  /-- How many free values have been drawn (log 5); the model's own. -/
  free : Nat
  deriving DecidableEq, Repr

/-- Faults: the machine stops. -/
inductive Fault where
  /-- Raised by an iteration of `RCV` when the time source gives a sample below the last one, against the law of
  R165 ("a model must not accept it", 95_test_vectors.md). Safe: nothing is claimed of such a run (log 7). -/
  | elapsedDecreased
  deriving DecidableEq, Repr

/-- Refusals: situations the spec gives no meaning (R239, U7). All are safe: the machine stops. -/
inductive Refusal where
  /-- An instruction without a meaning yet, rejected in its arm of `exec`. -/
  | notModelled (mnemonic : String)
  /-- `OP = 11` is issued (R93). Raised by `RESERVED`. -/
  | reservedOp
  /-- An issue while `BUSY = 1` (R93, R162, R265, R275). Raised by `ENC`, `RCV`, `DEC`, `SEND`, `EXEC`, `OUT18`
  and `CHK`. -/
  | busy
  /-- A second exchange or operation while an `EXEC` is in flight (R264, R275, log 14). Raised by the same. -/
  | exchangeInFlight
  /-- `DEC` outside `Complete` (R190). Raised by `DEC`. -/
  | notComplete
  /-- `SEND` with `TXV = 0` (R150). Raised by `SEND`. -/
  | noFrame
  /-- A response register is read while `RV = 0` (R36, R48, U7). Raised by `CHK`. -/
  | noResponse
  /-- A register that holds no value is read by the host (R26, R36, R48, U7). Raised by a host read. -/
  | notObservable
  /-- The word at the head of the script is no instruction (log 13). Raised by `step`. -/
  | notAnInstruction
  deriving DecidableEq, Repr

/-- The registers after reset (R47), the unspecified ones at the free values of the `n`-th draw (log 2). -/
def Block.reset (n : Nat) : Block where
  aBid := Config.freeBid n
  aCmd := Config.freeCmd n
  aDat := Config.freeDat n
  aTmo := Config.freeTmo n
  txbuf := none
  txv := false
  rxState := .idle
  rxBuf := []
  rxTmo := 0
  rxLastE := 0
  resp := none
  rv := false
  rTmo := false
  op := Config.freeOp n
  busy := false
  status := .ok

/-- No operand register has been written. -/
def Written.none : Written := ⟨false, false, false, false⟩

/-- The machine right after power-on: R47 for the block, an open and empty channel with nothing scripted (log 6),
a host with no line to run (log 1, 4). -/
def State.reset : State where
  blk := Block.reset 0
  chan := ⟨[], [], [], [], false, []⟩
  host := ⟨[], none, Config.freeRej, none, none, none, Written.none⟩
  free := 1

end Sys2Proof.Machine
end

