-- ==== Sys2Proof/Machine/Flags.lean ====
section
/-! DEFINITION. The flags and the numeric codes of the registers: `TXV` and `RV` as guards (R26, R36), `R_TMO`
(R197), and the codes of R91 and R92. The block keeps no arithmetic condition code (R42). -/

namespace Sys2Proof.Machine

/-- The code of a result (R91, D5). -/
def ResultCode.code : ResultCode → BitVec 4
  | .ok => 0
  | .invalidLength => 1
  | .invalidCharacter => 2
  | .transportRead => 3
  | .timeoutError => 4
  | .lengthMismatch => 5
  | .checksumMismatch => 6
  | .transportWrite => 7
  | .boardMismatch => 8
  | .deviceRejected _ => 9
  | .commandMismatch => 10
  | .echoMismatch => 11

/-- The code of a receiver state (R92, D6). -/
def RxState.code : RxState → BitVec 3
  | .idle => 0
  | .reading => 1
  | .complete => 2
  | .timedOut => 3
  | .failed => 4

/-- `STATUS` as its four bits `CODE` (R39). -/
def Block.statusBits (b : Block) : BitVec 4 := b.status.code

/-- What `DEC` writes to `R_TMO`: the echo is the sentinel, byte for byte (R197). -/
def peerTimeout (cmd : List Byte) : Bool := cmd == tmoEcho

/-- The frame `TXBUF` holds, observable only under `TXV = 1` (R26). -/
def Block.frame? (b : Block) : Option (List Byte) := if b.txv then b.txbuf else none

/-- The DecodedResponse, observable only under `RV = 1` (R36). -/
def Block.response? (b : Block) : Option Response := if b.rv then b.resp else none

end Sys2Proof.Machine
end

