-- ==== Sys2Proof/Machine/Operands.lean ====
section
/-! DEFINITION. The operand forms: the six byte-addressed buffer spaces of R60, reading them (R14, R67), and the
registers the host may read (R45, R275). -/

namespace Sys2Proof.Machine

/-- The six buffer spaces (R60). -/
inductive Space where
  | argBid | argCmd | argDat | txbuf | rxbuf | rsp
  deriving DecidableEq, Repr

/-- `RSP`: `R_BID` at 0, `R_CMD` at 1 to 3, `R_DAT` at 4 to 11, `R_CODE` at 12 (R60). -/
def Response.packed (r : Response) : List Byte := [r.bid] ++ r.cmd ++ r.dat ++ [r.code]

/-- What a space holds, index 0 first; `none`: it holds no value (R26, R36, R48). -/
def spaceBytes (sp : Space) (b : Block) : Option (List Byte) :=
  match sp with
  | .argBid => some b.aBid
  | .argCmd => some b.aCmd
  | .argDat => some b.aDat
  | .txbuf => b.frame?
  | .rxbuf => some b.rxBuf
  | .rsp => b.response?.map Response.packed

/-- The one byte at an index of a space; `none` where there is none (R60, R65). -/
def readByte (sp : Space) (i : Nat) (b : Block) : Option Byte :=
  (spaceBytes sp b).bind fun bytes => bytes[i]?

/-- `MemRead(SPACE + i, n)` (R14); `none` where one of the bytes does not exist. -/
def memRead (sp : Space) (i n : Nat) (b : Block) : Option (List Byte) :=
  (spaceBytes sp b).bind fun bytes => if i + n ≤ bytes.length then some (slice bytes i (i + n)) else none

/-- The spaces of fixed size have it: `TXBUF` 18 bytes, `RSP` 13, when they hold a value (R60). -/
def Memory.wf (b : Block) : Bool :=
  (match b.txbuf with
    | some f => f.length == outLen
    | none => true)
  && (match b.resp with
    | some r => r.cmd.length == cmdLen && r.dat.length == datLen
    | none => true)

/-- What the host reads from a register (R45, R275), free of side effects (R67); `none`: not observable (R26,
R36, R48). -/
def hostRead (r : HostReg) (b : Block) : Option RegValue :=
  match r with
  | .aBid => some (.bytes b.aBid)
  | .aCmd => some (.bytes b.aCmd)
  | .aDat => some (.bytes b.aDat)
  | .txbuf => b.frame?.map .bytes
  | .txv => some (.flag b.txv)
  | .rxState => some (.rx b.rxState)
  | .rxBuf => some (.bytes b.rxBuf)
  | .rBid => b.response?.map fun r => .bytes [r.bid]
  | .rCmd => b.response?.map fun r => .bytes r.cmd
  | .rDat => b.response?.map fun r => .bytes r.dat
  | .rCode => b.response?.map fun r => .bytes [r.code]
  | .rv => some (.flag b.rv)
  | .rTmo => some (.flag b.rTmo)
  | .busy => some (.flag b.busy)
  | .status => some (.code b.status)

end Sys2Proof.Machine
end

