-- ==== Sys2Proof/Machine/Ops.lean ====
section
/-! DEFINITION. The named operations that the meanings share: the block's register updates, raising an error
(R15, R235), the issue guard (R93, R264), the channel and the time source (R151, R165, R166), and the reset
event (R260). -/

namespace Sys2Proof.Machine

/-- The outcomes of one step of this machine. -/
abbrev Result := Host.Outcome State Fault Refusal

/-! ### Register updates of the block, each one indivisible (R66, R272) -/

/-- All of `TXBUF`, `TXV <- 1`, `STATUS <- Ok` (R134). -/
def Block.installFrame (frame : List Byte) (b : Block) : Block :=
  { b with txbuf := some frame, txv := true, status := .ok }

/-- `STATUS <- e`, `TXV <- 0`, so that `TXBUF` holds nothing (R135, R235). -/
def Block.dropFrame (e : ResultCode) (b : Block) : Block :=
  { b with txbuf := none, txv := false, status := e }

/-- The start step of `RCV` (R163). -/
def Block.startReceive (b : Block) : Block :=
  { b with rxBuf := [], rxTmo := b.aTmo, rxLastE := 0, resp := none, rv := false, rTmo := false,
           rxState := .reading, busy := true }

/-- `RX_LASTE <- e` (R167). -/
def Block.sampleTime (e : Nat) (b : Block) : Block := { b with rxLastE := e }

/-- `Append(RXBUF, b)` (R14, R170). -/
def Block.appendByte (x : Byte) (b : Block) : Block := { b with rxBuf := b.rxBuf ++ [x] }

/-- `RX_STATE <- st`, `BUSY <- 0`, `STATUS <- c`: an `RCV` is over (R167, R235, R274). -/
def Block.endReceive (st : RxState) (c : ResultCode) (b : Block) : Block :=
  { b with rxState := st, busy := false, status := c }

/-- All of `RSP`, `R_TMO`, `RV <- 1`, `STATUS <- Ok` (R197, R198). -/
def Block.installResponse (r : Response) (b : Block) : Block :=
  { b with resp := some r, rv := true, rTmo := peerTimeout r.cmd, status := .ok }

/-- `STATUS <- e`, `RV <- 0`, `R_TMO <- 0`, so that `RSP` holds nothing (R199, R235). -/
def Block.dropResponse (e : ResultCode) (b : Block) : Block :=
  { b with resp := none, rv := false, rTmo := false, status := e }

/-- An update of the block alone. -/
def State.mapBlock (f : Block → Block) (s : State) : State := { s with blk := f s.blk }

/-! ### Raising an error (R15, R235); there is no trap, no saved state and no return (R236, R237) -/

/-- What a host step returns (R150, R210), with `REJ_CODE <- R_CODE` for a rejection (R216). -/
def HostSide.returns (c : ResultCode) (h : HostSide) : HostSide :=
  { h with result := some c, rejCode := (match c with | .deviceRejected k => k | _ => h.rejCode) }

/-- `raise E`: exactly the state that R235 lists for the error, and nothing else. -/
def raise (e : ResultCode) (s : State) : State :=
  match e with
  | .ok => s
  | .invalidLength => s.mapBlock (Block.dropFrame e)
  | .invalidCharacter => s.mapBlock (Block.dropFrame e)
  | .transportRead => s.mapBlock (Block.endReceive .failed e)
  | .timeoutError => s.mapBlock (Block.endReceive .timedOut e)
  | .lengthMismatch => s.mapBlock (Block.dropResponse e)
  | .checksumMismatch => s.mapBlock (Block.dropResponse e)
  | .transportWrite => { s with host := s.host.returns e }
  | .boardMismatch => { s with host := s.host.returns e }
  | .deviceRejected _ => { s with host := s.host.returns e }
  | .commandMismatch => { s with host := s.host.returns e }
  | .echoMismatch => { s with host := s.host.returns e }

/-! ### The issue guard -/

/-- An issue is refused while `BUSY = 1` (R93, R265) and while an exchange is in flight (R264, R275; log 14,
DESIGN CHOICE on the second, safe); otherwise `k` runs. -/
def whenFree (s : State) (k : Result) : Result :=
  if s.blk.busy then .refused .busy
  else if s.host.exchange.isSome then .refused .exchangeInFlight
  else k

/-! ### The channel and the time source -/

/-- The outcomes of `ChanRead()` (R166). -/
inductive ReadOutcome where
  | byte (b : Byte)
  | noByte
  | error
  deriving DecidableEq, Repr

/-- `Elapsed()`: the next scripted sample, or a free one that is not below the last (R165, log 5). -/
def elapsed (s : State) : Nat × State :=
  match s.chan.clock with
  | e :: rest => (e, { s with chan.clock := rest })
  | [] => (s.blk.rxLastE + Config.freeTick s.free, { s with free := s.free + 1 })

/-- How the next read goes: scripted, or free (R166, log 5). -/
def drawRead (s : State) : ReadDraw × State :=
  match s.chan.answers with
  | a :: rest => (a, { s with chan.answers := rest })
  | [] => (Config.freeRead s.free, { s with free := s.free + 1 })

/-- The pending input of a channel that has reported an error is anything (U3, log 9). -/
def settleStream (s : State) : State :=
  if s.chan.suspect then { s with chan.pending := Config.freePending s.free, free := s.free + 1 } else s

/-- A read that goes as `d` says, on the stream as it stands (R61, R67, R166). -/
def readStream (d : ReadDraw) (s : State) : ReadOutcome × State :=
  match d with
  | .error => (.error, { s with chan.suspect := true })
  | .noByte => (.noByte, s)
  | .next arrivals =>
    match s.chan.pending ++ arrivals with
    | b :: rest => (.byte b, { s with chan.pending := rest })
    | [] => (.noByte, s)

/-- `ChanRead()` (R14, R166): one byte of the inbound stream, in arrival order, removed from it; or no byte; or an
error, after which the channel is indeterminate. -/
def chanRead (s : State) : ReadOutcome × State :=
  readStream (drawRead s).1 (settleStream (drawRead s).2)

/-- How the next write goes: scripted, or free (R151, log 5). -/
def drawWrite (s : State) : WriteDraw × State :=
  match s.chan.writes with
  | a :: rest => (a, { s with chan.writes := rest })
  | [] => (Config.freeWrite s.free, { s with free := s.free + 1 })

/-- `ChanWrite(bytes)` (R14, R151): all the bytes in order, or an error after some prefix of them (U10), after
which the channel is indeterminate (U3). The result says whether it was `Ok`. -/
def chanWrite (bytes : List Byte) (s : State) : Bool × State :=
  match drawWrite s with
  | (.ok, t) => (true, { t with chan.sent := t.chan.sent ++ bytes })
  | (.error count, t) => (false, { t with chan.sent := t.chan.sent ++ bytes.take count, chan.suspect := true })

/-- The peer's bytes join the end of the inbound stream (R44, R75). -/
def peerSends (bytes : List Byte) (s : State) : State :=
  { s with chan.pending := s.chan.pending ++ bytes }

/-! ### Fetch and reset -/

/-- The lines of the script after the first. -/
def popScript (s : State) : State := { s with host.script := s.host.script.tail }

/-- `OP` as the host sets it with the start strobe (R37, D4); a step without a code leaves it (log 27). -/
def latchOp (code : Option (BitVec 2)) (s : State) : State :=
  match code with
  | some c => s.mapBlock fun b => { b with op := c }
  | none => s

/-- The reset event (R260): every register to the value of R47, the channel untouched, an exchange in flight
abandoned without a result (log 16, DESIGN CHOICE, unsafe). -/
def resetEvent (s : State) : State :=
  { s with blk := Block.reset s.free, host.exchange := none, host.result := none, host.written := Written.none,
           free := s.free + 1 }

end Sys2Proof.Machine
end

