-- ==== Sys2Proof/Machine/Dec.lean ====
section
/-! DEFINITION. The Frame Decoder/Validator, operation `DEC` (44_decoder.md, R190 to R202). -/

namespace Sys2Proof.Machine

/-- `Decode(raw)` for either value of `HEX_LOWER_OK` (R191 to R195): length, then checksum, then extraction. -/
def decodeRaw (lowerOk : Bool) (raw : List Byte) : Except ResultCode Response :=
  if raw.length ≠ inLen then .error .lengthMismatch
  else if digitsMatch lowerOk (byteAt raw 17) (byteAt raw 18) (checksumDigits (slice raw 0 decRegion)) then
    .ok ⟨byteAt raw 0, slice raw 2 5, slice raw 6 14, byteAt raw 15⟩
  else .error .checksumMismatch

/-- `Decode(raw)` of this machine (R191). -/
def decodeResponse (raw : List Byte) : Except ResultCode Response := decodeRaw Config.hexLowerOk raw

/-- `DEC` (R190): it reads `RX_BUF` and writes the response registers, `RV`, `R_TMO`, `STATUS` (R198 to R200). -/
def dec (s : State) : State :=
  match decodeResponse s.blk.rxBuf with
  | .ok r => s.mapBlock (Block.installResponse r)
  | .error e => raise e s

/-- The precondition of `DEC` (R190, D17). -/
def whenComplete (s : State) (k : Result) : Result :=
  if s.blk.rxState = .complete then k else .refused .notComplete

/-- `DEC` issued by the host (R93, R190). -/
def execDec (s : State) : Result := whenFree s (whenComplete s (.next (dec s)))

end Sys2Proof.Machine
end

