-- ==== Sys2Proof/Machine/Enc.lean ====
section
/-! DEFINITION. The Frame Encoder, operation `ENC` (41_encoder.md, R130 to R138). -/

namespace Sys2Proof.Machine

/-- The frame of three operands, or the error: all lengths first, then all characters (R131 to R134, D8). -/
def encodeFrame (bid cmd dat : List Byte) : Except ResultCode (List Byte) :=
  if bid.length ≠ bidLen ∨ cmd.length ≠ cmdLen ∨ dat.length ≠ datLen then .error .invalidLength
  else if (bid ++ cmd ++ dat).all isPayloadChar then .ok (outFrame bid cmd dat)
  else .error .invalidCharacter

/-- `ENC` (R130): it reads its three operands and writes `TXBUF`, `TXV`, `STATUS` (R134, R135, R136). -/
def enc (s : State) : State :=
  match encodeFrame s.blk.aBid s.blk.aCmd s.blk.aDat with
  | .ok frame => s.mapBlock (Block.installFrame frame)
  | .error e => raise e s

/-- `ENC` issued by the host (R93, R130). -/
def execEnc (s : State) : Result := whenFree s (.next (enc s))

end Sys2Proof.Machine
end

