-- ==== Sys2Proof/WellFormed.lean ====
section
/-! DEFINITION. When an instruction is well formed: the lengths its fields have in the spec, and the table's
constraints on an `OUT18` word. The ill-formed terms that each check refuses are in Tests/Slice0.lean. -/

namespace Sys2Proof

open Sys2Proof.Machine

/-- The check, constructor by constructor. `EXEC`: the echo operands are 3 and 8 bytes (R210); the operands given
to `ENC` may have any length, since `ENC` classifies them (R94, R131). `OUT18`: field lengths of R83, payload
characters and right digits (opcode_table.json "constraints", R137). `IN20`: field lengths of R84 and nothing
else, since a peer may send any bytes in them (R94, R96). -/
def Instr.wellFormed : Instr → Bool
  | .enc => true
  | .rcv => true
  | .dec => true
  | .reserved => true
  | .send => true
  | .exec _ _ _ echo echoData =>
    echo.length == cmdLen && (match echoData with | none => true | some d => d.length == datLen)
  | .out18 b c d h l =>
    c.length == cmdLen && d.length == datLen && (b :: c ++ d).all isPayloadChar
      && [h, l] == checksumDigits (outRegion [b] c d)
  | .in20 _ _ c _ d _ _ _ _ _ => c.length == cmdLen && d.length == datLen

end Sys2Proof
end

