-- ==== Sys2Proof/Decode.lean ====
section
/-! DEFINITION. The decoder, total on any bytes and rejecting by name, and after it the encoder, both from R83,
R84, R90 and opcode_table.json. `SEND` and `EXEC` have no code (R90, D31), so no word decodes to them. -/

namespace Sys2Proof

open Sys2Proof.Machine

/-- Why a word is no instruction. -/
inductive DecodeError where
  /-- Neither an operation code (one byte), an `OUT18` word (18) nor an `IN20` word (20) (R82, R90). -/
  | noFormatOfLength (n : Nat)
  /-- An operation select outside the two bits of R90. -/
  | opTooWide (b : Byte)
  /-- An `OUT18` word without `0x2C` at byte 1, 5 or 14 (R83). -/
  | badSeparator (index : Nat)
  /-- A frame word whose last byte is not `0x0A` (R82). -/
  | badDelimiter
  deriving DecidableEq, Repr

/-- The operation select of R90: the two bits of a one-byte word. -/
def decodeOp (b : Byte) : Except DecodeError Instr :=
  if b = 0 then .ok .enc
  else if b = 1 then .ok .rcv
  else if b = 2 then .ok .dec
  else if b = 3 then .ok .reserved
  else .error (.opTooWide b)

/-- Format `OUT18` (R83), for a word of 18 bytes. -/
def decodeOut18 (w : List Byte) : Except DecodeError Instr :=
  if byteAt w 1 ≠ sep then .error (.badSeparator 1)
  else if byteAt w 5 ≠ sep then .error (.badSeparator 5)
  else if byteAt w 14 ≠ sep then .error (.badSeparator 14)
  else if byteAt w 17 ≠ delim then .error .badDelimiter
  else .ok (.out18 (byteAt w 0) (slice w 2 5) (slice w 6 14) (byteAt w 15) (byteAt w 16))

/-- Format `IN20` (R84), for a word of 20 bytes. -/
def decodeIn20 (w : List Byte) : Except DecodeError Instr :=
  if byteAt w 19 ≠ delim then .error .badDelimiter
  else .ok (.in20 (byteAt w 0) (byteAt w 1) (slice w 2 5) (byteAt w 5) (slice w 6 14) (byteAt w 14)
    (byteAt w 15) (byteAt w 16) (byteAt w 17) (byteAt w 18))

/-- The decoder: a word's length tells its format (R82; log 13, DESIGN CHOICE, safe). -/
def decode (w : List Byte) : Except DecodeError Instr :=
  if w.length = 1 then decodeOp (byteAt w 0)
  else if w.length = outLen then decodeOut18 w
  else if w.length = inLen then decodeIn20 w
  else .error (.noFormatOfLength w.length)

/-- The 2-bit code of a block operation (R90); the other rows have none. -/
def opCode : Instr → Option (BitVec 2)
  | .enc => some 0
  | .rcv => some 1
  | .dec => some 2
  | .reserved => some 3
  | .send => none
  | .exec _ _ _ _ _ => none
  | .out18 _ _ _ _ _ => none
  | .in20 _ _ _ _ _ _ _ _ _ _ => none

/-- The encoder (R83, R84, R90): the word of an instruction, none for `SEND` and `EXEC`, which have no code. -/
def encode : Instr → Option (List Byte)
  | .enc => some [0]
  | .rcv => some [1]
  | .dec => some [2]
  | .reserved => some [3]
  | .send => none
  | .exec _ _ _ _ _ => none
  | .out18 b c d h l => some ([b, sep] ++ c ++ [sep] ++ d ++ [sep, h, l, delim])
  | .in20 b s1 c s2 d s3 k s4 h l => some ([b, s1] ++ c ++ [s2] ++ d ++ [s3, k, s4, h, l, delim])

/-- The bytes of a table word: up to 8 bits below 4 an operation code; up to 144 bits an `OUT18` word; otherwise,
and for a short word that is no operation code, an `IN20` word, the bits above `nbits` being 0. The table numbers
a frame as one number whose most significant byte is byte 0 (R12, R83, R84; log 13). -/
def tableBytes (nbits w : Nat) : List Byte :=
  if nbits = 0 then []
  else if nbits ≤ 8 then (if w < 4 then wordBytes 1 w else wordBytes inLen w)
  else if nbits ≤ 144 then wordBytes outLen w
  else wordBytes inLen w

/-- The instruction the decoder reads from a table word. -/
def decodeTableWord (nbits w : Nat) : Option Instr :=
  match decode (tableBytes nbits w) with
  | .ok i => some i
  | .error _ => none

end Sys2Proof
end

