-- ==== Sys2Proof/Machine/Rcv.lean ====
section
/-! DEFINITION. The Frame Receiver, operation `RCV` (43_receiver.md, R160 to R178): the start step and the
iteration. -/

namespace Sys2Proof.Machine

/-- The start step (R163): the channel is not touched. -/
def startReceive (s : State) : State := s.mapBlock Block.startReceive

/-- `RCV` issued by the host (R160, R162): its start step. The iterations are the machine's turns while
`RX_STATE = Reading` (R164). -/
def execRcv (s : State) : Result := whenFree s (.next (startReceive s))

/-- A byte read: appended whatever it is, and the delimiter ends the receive (R170, R173). -/
def receiveByte (b : Byte) (s : State) : State :=
  if b = delim then s.mapBlock fun k => Block.endReceive .complete .ok (Block.appendByte b k)
  else s.mapBlock (Block.appendByte b)

/-- What an iteration makes of a read outcome (R167, R169, R170, R172). -/
def afterRead (r : ReadOutcome) (s : State) : State :=
  match r with
  | .error => raise .transportRead s
  | .noByte => s
  | .byte b => receiveByte b s

/-- `ITER` after its sample `e` was drawn (R167): the time check, then at most one read (R164, R168). -/
def iterateAt (e : Nat) (s : State) : State :=
  let t := s.mapBlock (Block.sampleTime e)
  if t.blk.rxTmo ≤ e then raise .timeoutError t
  else afterRead (chanRead t).1 (chanRead t).2

/-- One iteration (R167), for a machine whose `RX_STATE` is `Reading`. A sample below the last one is the model's
fault (R165, log 7). -/
def iterate (s : State) : Result :=
  if (elapsed s).1 < s.blk.rxLastE then .fault .elapsedDecreased
  else .next (iterateAt (elapsed s).1 (elapsed s).2)

end Sys2Proof.Machine
end

