-- ==== Sys2Proof/Machine/Send.lean ====
section
/-! DEFINITION. The Transmitter, host step `SEND` (42_transmitter.md, R150 to R153), and the write it makes. -/

namespace Sys2Proof.Machine

/-- One `ChanWrite` of a frame and what the host step returns: `Ok` or `TransportError` (R150, R151, R152). -/
def transmit (frame : List Byte) (s : State) : State :=
  match chanWrite frame s with
  | (true, t) => { t with host := t.host.returns .ok }
  | (false, t) => raise .transportWrite t

/-- The precondition of `SEND`, and `MemRead(TXBUF + 0, 18)` (R150, D18). -/
def withFrame (s : State) (k : List Byte → Result) : Result :=
  match memRead .txbuf 0 outLen s.blk with
  | some frame => k frame
  | none => .refused .noFrame

/-- `SEND` (R150). -/
def execSend (s : State) : Result := whenFree s (withFrame s fun frame => .next (transmit frame s))

end Sys2Proof.Machine
end

