-- ==== Sys2Proof/Machine/Exec.lean ====
section
/-! DEFINITION. The Command Executor, host sequence `EXEC` (45_executor.md, R210 to R218): its start, its phases,
each one step of the machine (log 15), and the generic checks. -/

namespace Sys2Proof.Machine

/-- Check 1: the response's board id is the one byte of the request's (R213). -/
def boardMatches (boardId : List Byte) (r : Response) : Bool := boardId.head? == some r.bid

/-- Check 2: the success sentinel (R214). -/
def codeAccepted (r : Response) : Bool := r.code == codeOk

/-- Check 3: the command echo (R215). -/
def echoMatches (expected : List Byte) (r : Response) : Bool := r.cmd == expected

/-- Check 4: the echo data (R217). -/
def dataMatches (expected : List Byte) (r : Response) : Bool := r.dat == expected

/-- The result of one check on a response (R213 to R217), with the board id to compare with. -/
def checkResult (c : Check) (boardId : List Byte) (r : Response) : ResultCode :=
  match c with
  | .bid => if boardMatches boardId r then .ok else .boardMismatch
  | .code => if codeAccepted r then .ok else .deviceRejected r.code
  | .cmd e => if echoMatches e r then .ok else .commandMismatch
  | .dat e => if dataMatches e r then .ok else .echoMismatch

/-- Checks in order: the first that fails is the result, and those after it are not made (R99, R211). -/
def checkAll (cs : List Check) (boardId : List Byte) (r : Response) : ResultCode :=
  match cs with
  | [] => .ok
  | c :: more =>
    match checkResult c boardId r with
    | .ok => checkAll more boardId r
    | e => e

/-- The checks of an exchange, in the order of R100; the last where echo data are supplied (R213 to R218). -/
def exchangeChecks (echo : List Byte) (echoData : Option (List Byte)) : List Check :=
  [.bid, .code, .cmd echo] ++ (echoData.map Check.dat).toList

/-- The result of the checks of an exchange. -/
def validate (boardId echo : List Byte) (echoData : Option (List Byte)) (r : Response) : ResultCode :=
  checkAll (exchangeChecks echo echoData) boardId r

/-- The host goes on to a phase. -/
def advance (p : Phase) (x : Exchange) (s : State) : State :=
  { s with host.exchange := some { x with phase := p } }

/-- The exchange is over with a result (R211, R274). -/
def endExchange (c : ResultCode) (s : State) : State :=
  { s with host := { s.host.returns c with exchange := none } }

/-- "if STATUS != Ok then return error(STATUS)", else the next phase (R210, R211). -/
def onStatus (p : Phase) (x : Exchange) (s : State) : State :=
  if s.blk.status = .ok then advance p x s else endExchange s.blk.status s

/-- The checks and the return: `R_DAT` on full success (R216, R218). -/
def conclude (x : Exchange) (r : Response) (s : State) : State :=
  match validate x.boardId x.expectedCommandEcho x.expectedEchoData r with
  | .ok => { endExchange .ok s with host.data := some r.dat }
  | e => endExchange e (raise e s)

/-- `A_TMO <- RX_TIMEOUT` (R210, R212, D14). -/
def setTimeout (n : Nat) (s : State) : State :=
  { s with blk.aTmo := n, host.written.tmo := true }

/-- The phase `send` (R210): a failed write ends the exchange with `TransportError`. -/
def sendPhase (x : Exchange) (frame : List Byte) (s : State) : State :=
  match chanWrite frame s with
  | (true, t) => advance .receive x { t with host := t.host.returns .ok }
  | (false, t) => endExchange .transportWrite t

/-- The response registers under `RV = 1` (R36, R267). -/
def withResponse (s : State) (k : Response → Result) : Result :=
  match s.blk.response? with
  | some r => k r
  | none => .refused .noResponse

/-- The host issues an operation of its exchange: `OP` and the strobe (R37, R210; log 27). -/
def issue (i : Instr) (s : State) : State := latchOp (opCode i) s

/-- One turn of an exchange in flight, for a machine whose receiver is not `Reading` (R210, R211). -/
def exchangeTurn (x : Exchange) (s : State) : Result :=
  match x.phase with
  | .encode => .next (onStatus .send x (enc (issue .enc s)))
  | .send => withFrame s fun frame => .next (sendPhase x frame s)
  | .receive => .next (advance .await x (startReceive (issue .rcv (setTimeout Config.rxTimeout s))))
  | .await => .next (onStatus .decode x s)
  | .decode => whenComplete s (.next (onStatus .validate x (dec (issue .dec s))))
  | .validate => withResponse s fun r => .next (conclude x r s)

/-- The start of an exchange: the operands go into the registers (R210), and the host keeps its own copy (R266). -/
def startExchange (boardId cmd dat echo : List Byte) (echoData : Option (List Byte)) (s : State) : State :=
  { s with
    blk.aBid := boardId, blk.aCmd := cmd, blk.aDat := dat
    host := { s.host with
      exchange := some ⟨boardId, cmd, dat, echo, echoData, .encode⟩
      result := none, data := none
      written := { s.host.written with bid := true, cmd := true, dat := true } } }

/-- `EXEC` (R210): the host takes up the exchange; its phases are the machine's turns. -/
def execExec (boardId cmd dat echo : List Byte) (echoData : Option (List Byte)) (s : State) : Result :=
  whenFree s (.next (startExchange boardId cmd dat echo echoData s))

end Sys2Proof.Machine
end

