-- ==== Sys2Proof/Machine/Reserved.lean ====
section
/-! DEFINITION. The reserved operation select (R93). -/

namespace Sys2Proof.Machine

/-- `OP = 11`: refused, whatever the state ("a model gives these no step", R93, D21). -/
def execReserved (_ : State) : Result := .refused .reservedOp

end Sys2Proof.Machine
end

