-- ==== Sys2Proof/Machine/Wire.lean ====
section
/-! DEFINITION. The two wire formats as instructions (R82 to R84): an `OUT18` word is a frame that the host writes
to the channel (log 11), an `IN20` word a frame of the peer that arrives on it (log 12). -/

namespace Sys2Proof.Machine

/-- The bytes of a frame word, index 0 first (R62); none for a row that is no frame. -/
def frameBytes (i : Instr) : List Byte := (encode i).getD []

/-- `OUT18`: one `ChanWrite` of the frame's 18 bytes, without retry (R14, R83, R151, R152; log 11). -/
def execOut18 (b : Byte) (c d : List Byte) (h l : Byte) (s : State) : Result :=
  whenFree s (.next (transmit (frameBytes (.out18 b c d h l)) s))

/-- `IN20`: the frame's 20 bytes join the channel's pending input, in any state (R44, R75, R84; log 12). -/
def execIn20 (b s1 : Byte) (c : List Byte) (s2 : Byte) (d : List Byte) (s3 k s4 h l : Byte) (s : State) : Result :=
  .next (peerSends (frameBytes (.in20 b s1 c s2 d s3 k s4 h l)) s)

end Sys2Proof.Machine
end

