-- ==== Sys2Proof/Machine/Dispatch.lean ====
section
/-! DEFINITION. One arm per row of the opcode table. -/

namespace Sys2Proof.Machine

def exec (i : Instr) (s : State) : Host.Outcome State Fault Refusal :=
  match i with
  | .enc => Sys2Proof.Machine.execEnc s
  | .rcv => Sys2Proof.Machine.execRcv s
  | .dec => Sys2Proof.Machine.execDec s
  | .reserved => Sys2Proof.Machine.execReserved s
  | .send => Sys2Proof.Machine.execSend s
  | .exec bid cmd dat echo echoData => Sys2Proof.Machine.execExec bid cmd dat echo echoData s
  | .out18 b c d h l => Sys2Proof.Machine.execOut18 b c d h l s
  | .in20 b s1 c s2 d s3 k s4 h l => Sys2Proof.Machine.execIn20 b s1 c s2 d s3 k s4 h l s

end Sys2Proof.Machine
end

