-- ==== Sys2Proof/Machine/HostActs.lean ====
section
/-! DEFINITION. What the world outside the block does that is no row of the opcode table: `SET`, `CHK`, a read,
the peer's bytes, the reset event (R45, R99, R260, R275). -/

namespace Sys2Proof.Machine

/-- One such act. A write of an operand register is allowed at any time and touches nothing else (R45, R67,
R266). The checks of one `CHK` line are made in order up to the first that fails; check 1 reads `A_BID` (R21, R99,
log 22). -/
def hostAct (a : HostAct) (s : State) : Result :=
  match a with
  | .setBid v => .next { s with blk.aBid := v, host.written.bid := true }
  | .setCmd v => .next { s with blk.aCmd := v, host.written.cmd := true }
  | .setDat v => .next { s with blk.aDat := v, host.written.dat := true }
  | .setTmo n => .next (setTimeout n s)
  | .chk c more => whenFree s (withResponse s fun r =>
      .next { s with host := s.host.returns (checkAll (c :: more) s.blk.aBid r) })
  | .read r =>
    match hostRead r s.blk with
    | some v => .next { s with host.seen := some v }
    | none => .refused .notObservable
  | .peer bytes => .next (peerSends bytes s)
  | .reset => .next (resetEvent s)

end Sys2Proof.Machine
end

