-- ==== Sys2Proof/Machine/Turn.lean ====
section
/-! DEFINITION. The turn the machine takes when the host makes no move: an iteration of `RCV` while
`RX_STATE = Reading` (R164), else a phase of the exchange in flight (R211), else nothing (R261). -/

namespace Sys2Proof.Machine

/-- One turn. -/
def turn (s : State) : Result :=
  if s.blk.rxState = .reading then iterate s
  else match s.host.exchange with
    | some x => exchangeTurn x s
    | none => .next s

/-- Whether an operation or an exchange is in flight, so that a waiting host waits on (R233, R274). -/
def inFlight (s : State) : Bool := s.blk.rxState == .reading || s.host.exchange.isSome

end Sys2Proof.Machine
end

