-- ==== Sys2Proof/Machine/Script.lean ====
section
/-! DEFINITION. Running the host's script (log 1): fetching the line at its head and doing what it says. -/

namespace Sys2Proof.Machine

/-- The machine as an instruction of the script finds it: its line taken off, and `OP` set where it was issued by
an operation code (R37, R90). -/
def fetched (i : Instr) (s : State) : State := latchOp (opCode i) (popScript s)

/-- A coded word: decoded and executed. -/
def runWord (bytes : List Byte) (s : State) : Result :=
  match decode bytes with
  | .ok i => exec i (fetched i s)
  | .error _ => .refused .notAnInstruction

/-- One line of the script, for a machine that still has the line at its script's head. -/
def runMove (m : Move) (s : State) : Result :=
  match m with
  | .word bytes => runWord bytes s
  | .send => exec .send (popScript s)
  | .exec bid cmd dat echo echoData => exec (.exec bid cmd dat echo echoData) (popScript s)
  | .act a => hostAct a (popScript s)
  | .turn => turn (popScript s)
  | .wait => if inFlight s then turn s else .next (popScript s)

/-- The line at the head of the script; with no line left the machine takes its turn (R261). -/
def runScript (s : State) : Result :=
  match s.host.script with
  | [] => turn s
  | m :: _ => runMove m s

end Sys2Proof.Machine
end

