-- ==== Sys2Proof/Machine/Step.lean ====
section
/-! DEFINITION. One step of the machine, and the placing of a word where the step fetches (log 1). -/

namespace Sys2Proof.Machine

/-- One step. -/
def step (s : State) : Host.Outcome State Fault Refusal := runScript s

/-- The machine with a table word as the next line of its script, so that `step` fetches and runs it. -/
def State.withFetchWord (s : State) (nbits w : Nat) : State :=
  { s with host.script := .word (tableBytes nbits w) :: s.host.script }

end Sys2Proof.Machine
end

