-- ==== Sys2Proof/Safety.lean ====
section
/-! DEFINITION. What claims call a good state and a safe run: the invariants the spec gives the state, and the
duties of the host (R219, R262, R275). -/

namespace Sys2Proof.Machine

/-- What `TXBUF` holds is a frame (R137): (a) separators, (b) delimiter, (c) no other delimiter, (d) digits,
(e) payload characters. -/
structure FrameOk (f : List Byte) : Prop where
  length : f.length = outLen
  separators : byteAt f 1 = sep ∧ byteAt f 5 = sep ∧ byteAt f 14 = sep
  delimiter : byteAt f 17 = delim
  oneDelimiter : ∀ x ∈ slice f 0 17, x ≠ delim
  digits : slice f 15 17 = checksumDigits (slice f 0 encRegion)
  payload : ∀ x ∈ slice f 0 encRegion, isPayloadChar x = true

/-- What `RX_BUF` holds in each receiver state (R28, R171; empty in `Idle`, D6). -/
def RxBufOk (b : Block) : Prop :=
  match b.rxState with
  | .idle => b.rxBuf = []
  | .complete => ∃ p, b.rxBuf = p ++ [delim] ∧ delim ∉ p
  | .reading => delim ∉ b.rxBuf
  | .timedOut => delim ∉ b.rxBuf
  | .failed => delim ∉ b.rxBuf

/-- What the registers of the block hold in relation to each other. -/
structure BlockOk (b : Block) : Prop where
  /-- `BUSY = 1` exactly while `RX_STATE = Reading` (R37). -/
  busy : b.busy = (b.rxState == .reading)
  /-- `TXV = 1` exactly when `TXBUF` holds something (R26). -/
  txv : b.txv = b.txbuf.isSome
  frame : ∀ f, b.txbuf = some f → FrameOk f
  rxBuf : RxBufOk b
  /-- `RV = 1` exactly when the response registers hold something (R36). -/
  rv : b.rv = b.resp.isSome
  /-- The response is that of the current `RX_BUF` (R36). -/
  resp : ∀ r, b.resp = some r → b.rxState = .complete ∧ decodeResponse b.rxBuf = .ok r
  /-- `R_TMO` says whether the echo is the sentinel (R36, R197). -/
  rTmo : b.rTmo = b.resp.any fun r => peerTimeout r.cmd
  /-- `STATUS` holds one of the block's codes (R91). -/
  status : b.status.code.toNat ≤ 6
  /-- A receive in progress has passed its checks (R167, R168). -/
  readingTime : b.rxState = .reading → b.rxLastE < b.rxTmo ∨ b.rxLastE = 0
  /-- A timed-out receive has failed its check (R176). -/
  timedOutTime : b.rxState = .timedOut → b.rxTmo ≤ b.rxLastE

/-- What the host's place in an exchange says of the block (R210, R211, R274). -/
def ExchangeOk (p : Phase) (b : Block) : Prop :=
  match p with
  | .encode => b.rxState ≠ .reading
  | .send => b.rxState ≠ .reading ∧ b.txv = true
  | .receive => b.rxState ≠ .reading
  | .await => b.rxState = .reading ∨ (b.rxState = .complete ∧ b.status = .ok)
      ∨ (b.rxState = .timedOut ∧ b.status = .timeoutError) ∨ (b.rxState = .failed ∧ b.status = .transportRead)
  | .decode => b.rxState = .complete
  | .validate => b.rv = true

/-- The invariant of the machine. -/
structure Inv (s : State) : Prop where
  block : BlockOk s.blk
  exchange : ∀ x, s.host.exchange = some x → ExchangeOk x.phase s.blk

/-- The host may issue: nothing is in flight (R265, R275). -/
def hostFree (s : State) : Bool := !s.blk.busy && s.host.exchange.isNone

/-- When the host may issue an instruction (R219, R262, R275). -/
def mayIssue (i : Instr) (s : State) : Bool :=
  match i with
  | .enc => hostFree s && s.host.written.bid && s.host.written.cmd && s.host.written.dat
  | .rcv => hostFree s && s.host.written.tmo
  | .dec => hostFree s && s.blk.rxState == .complete
  | .reserved => false
  | .send => hostFree s && s.blk.txv
  | .exec _ _ _ _ _ => hostFree s
  | .out18 _ _ _ _ _ => hostFree s
  | .in20 _ _ _ _ _ _ _ _ _ _ => true

/-- When the world may do an act (R267, R275). -/
def mayAct (a : HostAct) (s : State) : Bool :=
  match a with
  | .setBid _ => !s.blk.busy
  | .setCmd _ => !s.blk.busy
  | .setDat _ => !s.blk.busy
  | .setTmo _ => !s.blk.busy
  | .chk _ _ => hostFree s && s.blk.rv
  | .read r => (hostRead r s.blk).isSome
  | .peer _ => true
  | .reset => true

/-- The host keeps its duties at the next line of its script (R219, R275). -/
def Duty (s : State) : Bool :=
  match s.host.script with
  | [] => true
  | .word bytes :: _ =>
    match decode bytes with
    | .ok i => mayIssue i s
    | .error _ => false
  | .send :: _ => mayIssue .send s
  | .exec bid cmd dat echo echoData :: _ => mayIssue (.exec bid cmd dat echo echoData) s
  | .act a :: _ => mayAct a s
  | .turn :: _ => true
  | .wait :: _ => true

/-- The time source keeps its law: while `RX_STATE = Reading` the next scripted sample is not below the last
(R165). -/
def ClockLaw (s : State) : Bool :=
  match s.chan.clock with
  | [] => true
  | e :: _ => s.blk.rxState != .reading || s.blk.rxLastE ≤ e

/-- A run of `n` steps in which host and time source keep their duties. -/
def SafeRun : Nat → State → Prop
  | 0, _ => True
  | n + 1, s => Duty s = true ∧ ClockLaw s = true ∧ ∀ t, step s = .next t → SafeRun n t

end Sys2Proof.Machine
end

