-- ==== Sys2Proof/Certificates/Slice0/Obligations.lean ====
section
/-! DEFINITION. The statements about the model, for the provers. Each docstring says which rule of spec/ it
formalises; "the spec's decision Dn" is a choice of 92_eei_decisions.md, "log n" a choice of this model. -/

open Sys2Proof Sys2Proof.Machine

/-! ### Encodings -/

/-- Decoding the word of a well-formed instruction gives the instruction back: no bit of an encoding is dropped
(R83, R84, R90; the carrier of an operation code is log 13). -/
def Obligations.DecodeOfEncode : Prop :=
  ∀ (i : Instr) (w : List Byte), i.wellFormed = true → encode i = some w → decode w = .ok i

/-- Encoding what a word decodes to gives the word back: each word has one meaning (log 13). -/
def Obligations.EncodeOfDecode : Prop :=
  ∀ (w : List Byte) (i : Instr), decode w = .ok i → encode i = some w

/-- Words written out from R83, R84, R90 decode to the instructions they stand for: the four codes, each in a byte of its
own (the carrier is log 13), the `OUT18` word of 95_test_vectors.md E1, and an `IN20` word with the fields and the digits
of D4 and four different separators. -/
def Obligations.WordsDecodeAsWritten : Prop :=
  decode [0b00] = .ok .enc ∧ decode [0b01] = .ok .rcv ∧ decode [0b10] = .ok .dec ∧ decode [0b11] = .ok .reserved
  ∧ decode [0x31, 0x2C, 0x56, 0x45, 0x52, 0x2C, 0x31, 0x32, 0x33, 0x34, 0x35, 0x36, 0x37, 0x38, 0x2C, 0x42, 0x36, 0x0A]
    = .ok (.out18 0x31 [0x56, 0x45, 0x52] [0x31, 0x32, 0x33, 0x34, 0x35, 0x36, 0x37, 0x38] 0x42 0x36)
  ∧ decode [0x31, 0x3B, 0x56, 0x45, 0x52, 0x3C, 0x30, 0x31, 0x41, 0x42, 0x43, 0x44, 0x31, 0x32, 0x3D, 0x30, 0x3E,
      0x46, 0x33, 0x0A]
    = .ok (.in20 0x31 0x3B [0x56, 0x45, 0x52] 0x3C [0x30, 0x31, 0x41, 0x42, 0x43, 0x44, 0x31, 0x32] 0x3D 0x30 0x3E
      0x46 0x33)

/-! ### Primitives -/

/-- R80: which bytes are payload characters, how many they are, and that the separator is one and the delimiter
is not. -/
def Obligations.PayloadCharacterSet : Prop :=
  (∀ b : Byte, isPayloadChar b = true ↔ b = 0x00 ∨ (0x20 ≤ b.toNat ∧ b.toNat ≤ 0x7E))
  ∧ ((List.range 256).filter fun n => isPayloadChar (BitVec.ofNat 8 n)).length = 96
  ∧ isPayloadChar 0x2C = true ∧ isPayloadChar 0x0A = false

/-- R111: the running sum is exact for every region of up to 257 bytes, so for the 15 and 17 the block uses; it is 0
for the empty region and blind to the order of the bytes; the worked example. -/
def Obligations.RunningSumIsExact : Prop :=
  (∀ s : List Byte, s.length ≤ 257 → (sumRegister s).toNat = (s.map BitVec.toNat).sum)
  ∧ sumRegister [] = 0
  ∧ (∀ s s' : List Byte, s.Perm s' → sumRegister s = sumRegister s')
  ∧ (sumRegister [0x31, 0x2C, 0x56, 0x45, 0x52, 0x2C, 0x31, 0x32, 0x33, 0x34, 0x35, 0x36, 0x37, 0x38, 0x2C]).toNat = 0x346

/-- The checksum is the formula (R112, R114) on the exact sum, for a region of any length, reduced mod 256 (the spec's
decision D9, UNVERIFIED against a device, log 17), with the rule's corner cases; and it is what the encoder writes
over bytes 0 to 14 and what the decoder accepts over bytes 0 to 16. -/
def Obligations.ChecksumIsTheFormula : Prop :=
  (∀ s : List Byte, ((checksum s).toNat : Int)
      = (0xFF - ((((s.map BitVec.toNat).sum >>> 8 &&& 0xFF : Nat) : Int)
          + (((s.map BitVec.toNat).sum &&& 0xFF : Nat) : Int))) % 256)
  ∧ checksum [] = 0xFF
  ∧ (∀ n, checksum (List.replicate n 0x00) = 0xFF)
  ∧ checksum (List.replicate 17 0xFF) = 0x00
  ∧ (∀ bid cmd dat f, encodeFrame bid cmd dat = .ok f → slice f 15 17 = hex2 (checksum (slice f 0 15)))
  ∧ (∀ raw r, decodeResponse raw = .ok r → slice raw 17 19 = hex2 (checksum (slice raw 0 17)))

/-- The closed forms of R113, which the spec marks as derived: `255 - (hi + lo)` without a carry, `511 - (hi + lo)`
with one, the carry being discarded. -/
def Obligations.ChecksumClosedForms : Prop :=
  ∀ s : List Byte,
    let n := sumHi (regionSum s) + sumLo (regionSum s)
    n ≤ 510 ∧ (n ≤ 255 → (checksum s).toNat = 255 - n) ∧ (256 ≤ n → (checksum s).toNat = 511 - n)
      ∧ checksum s = ~~~ (BitVec.ofNat 8 n)

/-- The sixteen digit characters (R86; that they are ASCII is the spec's G1, from general knowledge). -/
def Obligations.HexDigitCharacters : Prop :=
  (∀ n : BitVec 4, n.toNat ≤ 9 → (hexChar n).toNat = 0x30 + n.toNat)
  ∧ (∀ n : BitVec 4, 10 ≤ n.toNat → (hexChar n).toNat = 0x41 + (n.toNat - 10))

/-- Two digits always, the more significant first; they name the byte, and neither is the delimiter or the separator
(R87 with the spec's decision D10, R115, which the spec marks as derived). -/
def Obligations.ChecksumDigitsNameTheByte : Prop :=
  (∀ c : Byte, hex2 c = [hexChar (BitVec.ofNat 4 (c.toNat / 16)), hexChar (BitVec.ofNat 4 (c.toNat % 16))])
  ∧ (∀ c c' : Byte, hex2 c = hex2 c' → c = c')
  ∧ (∀ (c : Byte) (x : Byte), x ∈ hex2 c → x ≠ delim ∧ x ≠ sep)

/-! ### The encoder -/

/-- On three operands of the right lengths, all of payload characters, `ENC` completes with the frame in `TXBUF`, `TXV` 1
and `STATUS` 0, and nothing else changed (R133, R134). That this holds as well of operands never written since reset, where
R48 and U7 have a model refuse, is log 2, the model's choice. -/
def Obligations.EncBuildsTheFrame : Prop :=
  ∀ s : State, s.blk.busy = false → s.host.exchange = none →
    s.blk.aBid.length = 1 → s.blk.aCmd.length = 3 → s.blk.aDat.length = 8 →
    (∀ x ∈ s.blk.aBid ++ s.blk.aCmd ++ s.blk.aDat, isPayloadChar x = true) →
    let region := s.blk.aBid ++ [0x2C] ++ s.blk.aCmd ++ [0x2C] ++ s.blk.aDat ++ [0x2C]
    let frame := region ++ hex2 (checksum region) ++ [0x0A]
    frame.length = 18 ∧ region.length = 15
    ∧ exec .enc s = .next { s with blk := { s.blk with txbuf := some frame, txv := true, status := .ok } }
    ∧ ∀ i, readByte .txbuf i { s.blk with txbuf := some frame, txv := true, status := .ok } = frame[i]?

/-- With the right lengths and a byte that is no payload character in any of the three operands, `ENC` completes with
`InvalidCharacter` (R132). That this holds as well of operands never written since reset, where R48 and U7 have a model
refuse, is log 2, the model's choice. -/
def Obligations.EncRejectsBadCharacters : Prop :=
  ∀ (s : State) (x : Byte), s.blk.busy = false → s.host.exchange = none →
    s.blk.aBid.length = 1 → s.blk.aCmd.length = 3 → s.blk.aDat.length = 8 →
    x ∈ s.blk.aBid ++ s.blk.aCmd ++ s.blk.aDat → isPayloadChar x = false →
    ∃ t, exec .enc s = .next t ∧ t.blk.status = .invalidCharacter

/-- A failed `ENC` writes `STATUS`, clears `TXV` and leaves no frame, whatever it was before; a wrong length is
reported before a wrong character (R131 with the spec's decision D8, R135 with D18). That this holds as well of operands
never written since reset, where R48 and U7 have a model refuse, is log 2, the model's choice. -/
def Obligations.EncFailureLeavesNoFrame : Prop :=
  ∀ s : State, s.blk.busy = false → s.host.exchange = none →
    (¬ (s.blk.aBid.length = 1 ∧ s.blk.aCmd.length = 3 ∧ s.blk.aDat.length = 8) →
      exec .enc s = .next { s with blk := { s.blk with txbuf := none, txv := false, status := .invalidLength } })
    ∧ (s.blk.aBid.length = 1 ∧ s.blk.aCmd.length = 3 ∧ s.blk.aDat.length = 8 →
      (∃ x ∈ s.blk.aBid ++ s.blk.aCmd ++ s.blk.aDat, isPayloadChar x = false) →
      exec .enc s = .next { s with blk := { s.blk with txbuf := none, txv := false, status := .invalidCharacter } })

/-- R136: what `ENC` writes is a function of its three operands; it leaves every other register, every byte of every
other space, the channel and the host as they were, and never leaves `BUSY` set. -/
def Obligations.EncIsPure : Prop :=
  (∀ s t s' t' : State, exec .enc s = .next t → exec .enc s' = .next t' →
    s.blk.aBid = s'.blk.aBid → s.blk.aCmd = s'.blk.aCmd → s.blk.aDat = s'.blk.aDat →
    t.blk.txbuf = t'.blk.txbuf ∧ t.blk.txv = t'.blk.txv ∧ t.blk.status = t'.blk.status)
  ∧ ∀ s t : State, exec .enc s = .next t →
    t.blk.busy = false
    ∧ t.blk = { s.blk with txbuf := t.blk.txbuf, txv := t.blk.txv, status := t.blk.status }
    ∧ t.chan = s.chan ∧ t.host = s.host ∧ t.free = s.free
    ∧ ∀ (sp : Space) (i : Nat), sp ≠ .txbuf → readByte sp i t.blk = readByte sp i s.blk

/-- The properties of a built frame (R137, which the spec marks as derived), spelt out byte by byte. -/
def Obligations.BuiltFrameProperties : Prop :=
  ∀ bid cmd dat f, encodeFrame bid cmd dat = .ok f →
    f.length = 18 ∧ byteAt f 1 = 0x2C ∧ byteAt f 5 = 0x2C ∧ byteAt f 14 = 0x2C ∧ byteAt f 17 = 0x0A
    ∧ (∀ i, i < 17 → byteAt f i ≠ 0x0A)
    ∧ slice f 15 17 = hex2 (checksum (slice f 0 15))
    ∧ (∀ i, i < 15 → isPayloadChar (byteAt f i) = true)
    ∧ slice f 0 1 = bid ∧ slice f 2 5 = cmd ∧ slice f 6 14 = dat

/-! ### The transmitter and the wire formats -/

/-- With a frame in `TXBUF`, `SEND` completes in one of two ways only, however the channel answers: all 18 bytes were
accepted in order, or the write failed and an unknown prefix went out. No register of the block changes, and no byte of any
buffer space (R150, R151). That the host's result is kept is log 4, what a failed write does to the channel log 9 (U3) and
log 10 (U10, N16), all the model's. -/
def Obligations.SendIsAllOrError : Prop :=
  ∀ (s : State) (f : List Byte), s.blk.busy = false → s.host.exchange = none →
    s.blk.txv = true → s.blk.txbuf = some f → f.length = 18 →
    ∃ t, exec .send s = .next t ∧ t.blk = s.blk ∧ t.chan.pending = s.chan.pending
      ∧ t.chan.answers = s.chan.answers ∧ t.chan.clock = s.chan.clock
      ∧ t.host = { s.host with result := t.host.result }
      ∧ (∀ (sp : Space) (i : Nat), readByte sp i t.blk = readByte sp i s.blk)
      ∧ ((t.host.result = some .ok ∧ t.chan.sent = s.chan.sent ++ f ∧ t.chan.suspect = s.chan.suspect)
        ∨ (t.host.result = some .transportWrite ∧ (∃ n, t.chan.sent = s.chan.sent ++ f.take n)
          ∧ t.chan.suspect = true))
      ∧ (∀ ws, s.chan.writes = .ok :: ws → t.host.result = some .ok)
      ∧ (∀ n ws, s.chan.writes = .error n :: ws → t.host.result = some .transportWrite)

/-- Without a frame `SEND` is refused (R150 with the spec's decision D18). -/
def Obligations.SendNeedsAFrame : Prop :=
  ∀ s : State, s.blk.busy = false → s.host.exchange = none → s.blk.txv = false → exec .send s = .refused .noFrame

/-- An `OUT18` word is written to the channel, board id first, and completes in one of two ways only, however the channel
answers: all 18 bytes were accepted in order, or the write failed and an unknown prefix went out. No register of the block
changes, and no byte of any buffer space (R83, R151). That a frame word stands for this write is log 11, that the host's
result is kept log 4, what a failed write does to the channel log 9 (U3) and log 10 (U10, N16), all the model's. -/
def Obligations.Out18GoesOut : Prop :=
  ∀ (s : State) (b h l : Byte) (c d : List Byte), s.blk.busy = false → s.host.exchange = none →
    let f := [b, 0x2C] ++ c ++ [0x2C] ++ d ++ [0x2C, h, l, 0x0A]
    ∃ t, exec (.out18 b c d h l) s = .next t ∧ t.blk = s.blk ∧ t.chan.pending = s.chan.pending
      ∧ t.chan.answers = s.chan.answers ∧ t.chan.clock = s.chan.clock
      ∧ t.host = { s.host with result := t.host.result }
      ∧ (∀ (sp : Space) (i : Nat), readByte sp i t.blk = readByte sp i s.blk)
      ∧ ((t.host.result = some .ok ∧ t.chan.sent = s.chan.sent ++ f ∧ t.chan.suspect = s.chan.suspect)
        ∨ (t.host.result = some .transportWrite ∧ (∃ n, t.chan.sent = s.chan.sent ++ f.take n)
          ∧ t.chan.suspect = true))
      ∧ (∀ ws, s.chan.writes = .ok :: ws → t.host.result = some .ok)
      ∧ (∀ n ws, s.chan.writes = .error n :: ws → t.host.result = some .transportWrite)

/-- An `IN20` word joins the pending input byte for byte, board id first, in any state; nothing else changes. That a
frame word stands for this arrival is the model's choice (log 12), and so is that the channel takes it all (log 8; N15
leaves capacity and overrun open). -/
def Obligations.In20Arrives : Prop :=
  ∀ (s : State) (b s1 s2 s3 k s4 h l : Byte) (c d : List Byte),
    exec (.in20 b s1 c s2 d s3 k s4 h l) s = .next { s with
      chan := { s.chan with
        pending := s.chan.pending ++ ([b, s1] ++ c ++ [s2] ++ d ++ [s3, k, s4, h, l, 0x0A]) } }
    ∧ ∀ (sp : Space) (i : Nat) (t : State), exec (.in20 b s1 c s2 d s3 k s4 h l) s = .next t →
        readByte sp i t.blk = readByte sp i s.blk

/-- Bytes the peer sends join the end of the pending input, at any time, and change nothing else (R44, R75, R233; a line
for them is log 1; that the channel takes them all is log 8, the model's, where N15 leaves capacity and overrun open). -/
def Obligations.PeerBytesArrive : Prop :=
  ∀ (s : State) (bytes : List Byte) (rest : List Move), s.host.script = .act (.peer bytes) :: rest →
    step s = .next { s with chan := { s.chan with pending := s.chan.pending ++ bytes }
                            host := { s.host with script := rest } }

/-! ### The receiver -/

/-- The start step (R163; that the decoded view is cleared with the raw buffer is the spec's decision D27): `RCV`
completes from every state in which nothing is in flight, touches no byte of the channel and does not write
`STATUS`. That this holds as well of an `A_TMO` never written since reset, where R48 and U7 have a model refuse, is log 2,
the model's choice. -/
def Obligations.RcvStarts : Prop :=
  ∀ s : State, s.blk.busy = false → s.host.exchange = none →
    ∃ t, exec .rcv s = .next t
      ∧ t.blk = { s.blk with rxBuf := [], rxTmo := s.blk.aTmo, rxLastE := 0, resp := none, rv := false, rTmo := false,
                             rxState := .reading, busy := true }
      ∧ t.chan = s.chan ∧ t.host = s.host ∧ t.free = s.free
      ∧ ∀ (sp : Space) (i : Nat), sp ≠ .rxbuf → sp ≠ .rsp → readByte sp i t.blk = readByte sp i s.blk

/-- A byte read under a passed check is appended, whatever it is, and the delimiter ends the receive (R170); it is removed
from the inbound stream (R166). The byte is the first of the pending input and what arrives during the read (log 8); where
the channel has reported an error the pending input is a free value at every read (log 9), and this holds for any. -/
def Obligations.ReceivedByteIsAppended : Prop :=
  ∀ (s : State) (e : Nat) (es : List Nat) (arrivals : List Byte) (ds : List ReadDraw) (b : Byte) (rest : List Byte),
    s.host.script = [] → s.blk.rxState = .reading →
    s.chan.clock = e :: es → s.blk.rxLastE ≤ e → e < s.blk.rxTmo →
    s.chan.answers = .next arrivals :: ds →
    let stream := if s.chan.suspect then Config.freePending s.free else s.chan.pending
    stream ++ arrivals = b :: rest →
    step s = .next { s with
      blk := if b = 0x0A then { s.blk with rxLastE := e, rxBuf := s.blk.rxBuf ++ [b],
                                           rxState := .complete, busy := false, status := .ok }
             else { s.blk with rxLastE := e, rxBuf := s.blk.rxBuf ++ [b] }
      chan := { s.chan with clock := es, answers := ds, pending := rest }
      free := if s.chan.suspect then s.free + 1 else s.free }

/-- A read error under a passed check ends the receive at once, the bytes in `RX_BUF` stay, and no further read or check is
made: with no exchange in flight the next step changes nothing (R169). The channel is indeterminate from then on
(93_implementation_defined.md U3; how State says so, and what it makes of the pending input, is log 9). -/
def Obligations.ReadErrorFailsTheReceive : Prop :=
  ∀ (s : State) (e : Nat) (es : List Nat) (ds : List ReadDraw),
    s.host.script = [] → s.blk.rxState = .reading →
    s.chan.clock = e :: es → s.blk.rxLastE ≤ e → e < s.blk.rxTmo → s.chan.answers = .error :: ds →
    ∃ t, step s = .next t
      ∧ t.blk = { s.blk with rxLastE := e, rxState := .failed, busy := false, status := .transportRead }
      ∧ t.chan.clock = es ∧ t.chan.answers = ds ∧ t.chan.writes = s.chan.writes ∧ t.chan.sent = s.chan.sent
      ∧ t.chan.suspect = true ∧ (s.chan.suspect = false → t.chan.pending = s.chan.pending)
      ∧ t.host = s.host ∧ (s.host.exchange = none → step t = .next t)

/-- A read that gives no byte changes nothing of the block but `RX_LASTE`, and the receive goes on (R172, the spec's
decision D15). It gives none when the channel answers so, or when nothing is pending and nothing arrives (log 8); where the
channel has reported an error the pending input is a free value at every read (log 9), and this holds for any. -/
def Obligations.NoByteGoesOn : Prop :=
  ∀ (s : State) (e : Nat) (es : List Nat) (d : ReadDraw) (ds : List ReadDraw),
    s.host.script = [] → s.blk.rxState = .reading →
    s.chan.clock = e :: es → s.blk.rxLastE ≤ e → e < s.blk.rxTmo → s.chan.answers = d :: ds →
    let stream := if s.chan.suspect then Config.freePending s.free else s.chan.pending
    d = .noByte ∨ (d = .next [] ∧ stream = []) →
    step s = .next { s with
      blk := { s.blk with rxLastE := e }
      chan := { s.chan with clock := es, answers := ds, pending := stream }
      free := if s.chan.suspect then s.free + 1 else s.free }

/-- A sample at or above `RX_TMO` ends the receive in `TimedOut` without a read: the channel's input and answers are as
before (R168 with the spec's decision D12). With `RX_TMO = 0` every first check ends so. -/
def Obligations.TimeoutMakesNoRead : Prop :=
  ∀ (s : State) (e : Nat) (es : List Nat),
    s.host.script = [] → s.blk.rxState = .reading →
    s.chan.clock = e :: es → s.blk.rxLastE ≤ e → s.blk.rxTmo ≤ e →
    step s = .next { s with
      blk := { s.blk with rxLastE := e, rxState := .timedOut, busy := false, status := .timeoutError }
      chan := { s.chan with clock := es } }

/-- A sample below the last one is against the law of the time source; the model stops in a fault of its own (R165;
the fault is the model's choice, log 7). -/
def Obligations.TimeMayNotRunBackwards : Prop :=
  ∀ (s : State) (e : Nat) (es : List Nat),
    s.host.script = [] → s.blk.rxState = .reading → s.chan.clock = e :: es → e < s.blk.rxLastE →
    step s = .fault .elapsedDecreased

/-- The transitions of R161 and no other, for every step of the machine (`Idle` is the spec's decision D6): a receive
starts only from a state that is not `Reading`; from `Reading` a step stays, or ends in one of the three terminal
states with the status of the table, or is the reset event. -/
def Obligations.ReceiverTransitions : Prop :=
  ∀ s t : State, Inv s → step s = .next t →
    t.blk.rxState = s.blk.rxState
    ∨ (s.blk.rxState ≠ .reading ∧ t.blk.rxState = .reading ∧ t.blk.status = s.blk.status)
    ∨ (s.blk.rxState = .reading ∧
        ((t.blk.rxState = .complete ∧ t.blk.status = .ok)
        ∨ (t.blk.rxState = .timedOut ∧ t.blk.status = .timeoutError)
        ∨ (t.blk.rxState = .failed ∧ t.blk.status = .transportRead)))
    ∨ (t.blk.rxState = .idle ∧ t.blk.status = .ok ∧ ∃ rest, s.host.script = .act .reset :: rest)

/-- While the receiver stays in `Reading`, `STATUS` does not change (R39; the register is the spec's decision D29). -/
def Obligations.StatusHoldsWhileReading : Prop :=
  ∀ s t : State, Inv s → step s = .next t → s.blk.rxState = .reading → t.blk.rxState = .reading →
    t.blk.status = s.blk.status

/-- `RX_BUF` is append-only during assembly and unchanged otherwise, but for the start of a receive and reset, which
empty it (R28; what a build with a 20-byte store does is not stated). -/
def Obligations.RxBufIsAppendOnly : Prop :=
  ∀ s t : State, Inv s → step s = .next t →
    t.blk.rxBuf = s.blk.rxBuf
    ∨ (s.blk.rxState = .reading ∧ ∃ b, t.blk.rxBuf = s.blk.rxBuf ++ [b])
    ∨ (s.blk.rxState ≠ .reading ∧ t.blk.rxState = .reading ∧ t.blk.rxBuf = [])
    ∨ (t.blk.rxBuf = [] ∧ ∃ rest, s.host.script = .act .reset :: rest)

/-- A receive in progress does not see the operand registers: whatever they hold, an iteration gives the same outcome
and leaves them as they are (R30, R266, which the spec marks as derived). -/
def Obligations.OperandsDoNotDisturbAReceive : Prop :=
  ∀ (s : State) (bid cmd dat : List Byte) (tmo : Nat),
    let put (u : State) : State := { u with blk := { u.blk with aBid := bid, aCmd := cmd, aDat := dat, aTmo := tmo } }
    (∀ t, iterate s = .next t → iterate (put s) = .next (put t))
    ∧ (∀ f, iterate s = .fault f → iterate (put s) = .fault f)

/-- Nothing that the peer sent is lost or reordered while the channel has reported no error: a step adds arrivals at
the end, and takes at most the first byte, which goes to the end of `RX_BUF` (R44, R67, R268: there is no flush; the
rules are marked as derived, stream order is the spec's G2). That the channel itself loses nothing is log 8, the model's
choice, where N15 leaves capacity and overrun open; that the host does not drain it is log 28, the model's choice. -/
def Obligations.PendingInputIsCarried : Prop :=
  ∀ s t : State, s.chan.suspect = false → step s = .next t →
    ∃ arrivals,
      t.chan.pending = s.chan.pending ++ arrivals
      ∨ ∃ b, s.chan.pending ++ arrivals = b :: t.chan.pending ∧ t.blk.rxBuf = s.blk.rxBuf ++ [b]

/-- A receive ends in `TimedOut` only at a sample that reached the timeout, and the overshoot is less than the time since
the last sample, at which the timeout had not elapsed (R176, which the spec marks as derived; a timeout of 0, which ends
every receive at its first check, has no sample before). -/
def Obligations.TimeoutNeverEarly : Prop :=
  ∀ s t : State, Inv s → step s = .next t → s.blk.rxState = .reading → t.blk.rxState = .timedOut →
    s.blk.rxTmo ≤ t.blk.rxLastE ∧ t.blk.rxTmo = s.blk.rxTmo
    ∧ (s.blk.rxTmo = 0 ∨ (s.blk.rxLastE < s.blk.rxTmo
        ∧ t.blk.rxLastE - s.blk.rxTmo < t.blk.rxLastE - s.blk.rxLastE))

/-- If time advances the receive ends: with a sample at or above the timeout scripted within the next `k + 1` samples,
and the samples rising, the receive is over within `k + 1` steps, whatever the peer does (R177, a premise of the
environment; marked as derived). -/
def Obligations.ReceiveEndsWhenTimeAdvances : Prop :=
  ∀ (s : State) (k : Nat), s.host.script = [] → s.blk.rxState = .reading →
    (s.blk.rxLastE :: s.chan.clock).Pairwise (· ≤ ·) → (∃ e, s.chan.clock[k]? = some e ∧ s.blk.rxTmo ≤ e) →
    ∃ (n : Nat) (t : State), n ≤ k + 1 ∧ Host.Core.run core n s = .next t ∧ t.blk.rxState ≠ .reading

/-! ### The decoder -/

/-- Bytes 0 to 16 and byte 19 may be anything; `Decode` succeeds exactly on the 20-byte sequences whose bytes 17 and 18
are the checksum digits of the 17 before, and extracts bytes 0, 2 to 4, 6 to 13 and 15 unchanged (R191 to R196 with the
spec's decision D11: capital digits only). -/
def Obligations.DecodeChecksOnlyLengthAndDigits : Prop :=
  ∀ (raw : List Byte) (r : Response), decodeResponse raw = .ok r ↔
    ∃ (p : List Byte) (x : Byte), p.length = 17 ∧ raw = p ++ hex2 (checksum p) ++ [x]
      ∧ r = ⟨byteAt p 0, slice p 2 5, slice p 6 14, byteAt p 15⟩

/-- R195: on a complete receive of 20 bytes with the right digits `DEC` completes and extracts the four fields. -/
def Obligations.DecExtractsTheFields : Prop :=
  ∀ (s : State) (b s1 c0 c1 c2 s2 d0 d1 d2 d3 d4 d5 d6 d7 s3 k s4 h l x : Byte),
    s.blk.busy = false → s.host.exchange = none → s.blk.rxState = .complete →
    s.blk.rxBuf = [b, s1, c0, c1, c2, s2, d0, d1, d2, d3, d4, d5, d6, d7, s3, k, s4, h, l, x] →
    [h, l] = hex2 (checksum [b, s1, c0, c1, c2, s2, d0, d1, d2, d3, d4, d5, d6, d7, s3, k, s4]) →
    ∃ t, exec .dec s = .next t ∧ t.blk.status = .ok ∧ t.blk.rv = true
      ∧ t.blk.resp = some ⟨b, [c0, c1, c2], [d0, d1, d2, d3, d4, d5, d6, d7], k⟩

/-- A successful `DEC` writes the response registers, `RV`, `R_TMO` (the echo is "TMO", byte for byte: R197 with the
spec's decision D20) and `STATUS`, and nothing else, so it may be repeated with the same result (R198). -/
def Obligations.DecSuccessWritesOnlyTheResponse : Prop :=
  ∀ (s : State) (r : Response), s.blk.busy = false → s.host.exchange = none → s.blk.rxState = .complete →
    decodeResponse s.blk.rxBuf = .ok r →
    ∃ t, exec .dec s = .next t
      ∧ t = { s with blk := { s.blk with resp := some r, rv := true, rTmo := (r.cmd == [0x54, 0x4D, 0x4F]),
                                         status := .ok } }
      ∧ exec .dec t = .next t
      ∧ (∀ (sp : Space) (i : Nat), sp ≠ .rsp → readByte sp i t.blk = readByte sp i s.blk)
      ∧ ∀ i, readByte .rsp i t.blk = ([r.bid] ++ r.cmd ++ r.dat ++ [r.code])[i]?

/-- R192: a buffer of any other length than 20 gives `LengthMismatch`, whatever its bytes are. -/
def Obligations.DecLengthIsCheckedFirst : Prop :=
  ∀ s : State, s.blk.busy = false → s.host.exchange = none → s.blk.rxState = .complete → s.blk.rxBuf.length ≠ 20 →
    ∃ t, exec .dec s = .next t ∧ t.blk.status = .lengthMismatch

/-- A failed `DEC` clears `RV` and `R_TMO`, leaves no response and changes nothing else (R199 with the spec's decision
D19); wrong digits, lower-case ones among them, give `ChecksumMismatch` (R194 with D11). -/
def Obligations.DecFailureLeavesNoResponse : Prop :=
  ∀ s : State, s.blk.busy = false → s.host.exchange = none → s.blk.rxState = .complete →
    (s.blk.rxBuf.length ≠ 20 →
      exec .dec s = .next { s with
        blk := { s.blk with resp := none, rv := false, rTmo := false, status := .lengthMismatch } })
    ∧ (s.blk.rxBuf.length = 20 → slice s.blk.rxBuf 17 19 ≠ hex2 (checksum (slice s.blk.rxBuf 0 17)) →
      exec .dec s = .next { s with
        blk := { s.blk with resp := none, rv := false, rTmo := false, status := .checksumMismatch } })

/-- Outside `Complete`, `DEC` is refused (R190 with the spec's decision D17). -/
def Obligations.DecNeedsACompleteReceive : Prop :=
  ∀ s : State, s.blk.busy = false → s.host.exchange = none → s.blk.rxState ≠ .complete →
    exec .dec s = .refused .notComplete

/-- `DEC` reads `RX_BUF` and `RX_STATE` and nothing else (R200, which the spec marks as derived). -/
def Obligations.DecIsAFunctionOfTheBuffer : Prop :=
  ∀ s t s' t' : State, exec .dec s = .next t → exec .dec s' = .next t' → s.blk.rxBuf = s'.blk.rxBuf →
    t.blk.resp = t'.blk.resp ∧ t.blk.rv = t'.blk.rv ∧ t.blk.rTmo = t'.blk.rTmo ∧ t.blk.status = t'.blk.status
    ∧ t.chan = s.chan ∧ t.host = s.host

/-- The round trip of R201 (which the spec marks as derived): the fields of a well-formed response come back
unchanged, whatever the separators are. -/
def Obligations.ResponseRoundTrip : Prop :=
  ∀ (b s1 s2 s3 k s4 : Byte) (c d : List Byte), c.length = 3 → d.length = 8 →
    let p := [b, s1] ++ c ++ [s2] ++ d ++ [s3, k, s4]
    decodeResponse (p ++ hex2 (checksum p) ++ [0x0A]) = .ok ⟨b, c, d, k⟩

/-! ### Refused issues -/

/-- The reserved operation select is refused in every state, and any start of an operation while `BUSY = 1` (R93 with
the spec's decision D21). -/
def Obligations.ReservedAndBusyAreRefused : Prop :=
  (∀ s : State, exec .reserved s = .refused .reservedOp)
  ∧ ∀ s : State, s.blk.busy = true →
    exec .enc s = .refused .busy ∧ exec .rcv s = .refused .busy ∧ exec .dec s = .refused .busy

/-- While `BUSY = 1` or an exchange is in flight the host's steps are refused as well (R264, R275; the refusal is the
model's choice, log 14). -/
def Obligations.OneExchangeAtATime : Prop :=
  ∀ (s : State) (i : Instr), (∀ b s1 c s2 d s3 k s4 h l, i ≠ .in20 b s1 c s2 d s3 k s4 h l) → i ≠ .reserved →
    (s.blk.busy = true → exec i s = .refused .busy)
    ∧ (s.blk.busy = false → s.host.exchange.isSome = true → exec i s = .refused .exchangeInFlight)

/-! ### The executor -/

/-- `EXEC` puts its operands into the registers and takes up the exchange at its first phase (R210; that the phases are
steps of their own is log 15, that no result is kept from before is log 4, both the model's). -/
def Obligations.ExecTakesUpTheExchange : Prop :=
  ∀ (s : State) (bid cmd dat echo : List Byte) (echoData : Option (List Byte)),
    s.blk.busy = false → s.host.exchange = none →
    ∃ t, exec (.exec bid cmd dat echo echoData) s = .next t
      ∧ t.blk = { s.blk with aBid := bid, aCmd := cmd, aDat := dat }
      ∧ t.chan = s.chan ∧ t.free = s.free
      ∧ t.host.exchange = some ⟨bid, cmd, dat, echo, echoData, .encode⟩ ∧ t.host.result = none
      ∧ t.host.script = s.host.script ∧ t.host.rejCode = s.host.rejCode
      ∧ ∀ (sp : Space) (i : Nat), sp ≠ .argBid → sp ≠ .argCmd → sp ≠ .argDat →
          readByte sp i t.blk = readByte sp i s.blk

/-- The exchange stops at its first failure, which is its result (R211; that a phase is one step is log 15, where the host
keeps the result is log 4, both the model's): after a failed `ENC` nothing is sent, after a
failed write nothing is received, after a failed `RCV` nothing is decoded, after a failed `DEC` no field is
checked: no exchange is in flight any more, so nothing of it follows. -/
def Obligations.ExchangeStopsAtTheFirstFailure : Prop :=
  ∀ (s : State) (x : Exchange), Inv s → s.host.script = [] → s.blk.rxState ≠ .reading → s.host.exchange = some x →
    (∀ e, x.phase = .encode → encodeFrame s.blk.aBid s.blk.aCmd s.blk.aDat = .error e →
      ∃ t, step s = .next t ∧ t.host.exchange = none ∧ t.host.result = some e ∧ t.blk.status = e ∧ t.chan = s.chan
        ∧ step t = .next t)
    ∧ (∀ n ws, x.phase = .send → s.chan.writes = .error n :: ws →
      ∃ t, step s = .next t ∧ t.host.exchange = none ∧ t.host.result = some .transportWrite ∧ t.blk = s.blk
        ∧ step t = .next t)
    ∧ (x.phase = .await → s.blk.status ≠ .ok →
      ∃ t, step s = .next t ∧ t.host.exchange = none ∧ t.host.result = some s.blk.status ∧ t.blk = s.blk
        ∧ step t = .next t)
    ∧ (∀ e, x.phase = .decode → decodeResponse s.blk.rxBuf = .error e →
      ∃ t, step s = .next t ∧ t.host.exchange = none ∧ t.host.result = some e ∧ t.blk.status = e
        ∧ t.host.rejCode = s.host.rejCode ∧ step t = .next t)

/-- The checks of an exchange in the order board, code, command, echo data (R213 to R218; the order and the byte-for-byte
comparison of the command echo are the spec's decision D30): the result of the checks, `REJ_CODE` written only by a
rejection, the data field returned on full success, and no register of the block changed. That the checks are one step is
log 15, where the host keeps result and data is log 4, both the model's. -/
def Obligations.ChecksInOrder : Prop :=
  ∀ (s : State) (x : Exchange) (r : Response), s.host.script = [] → s.blk.rxState ≠ .reading →
    s.host.exchange = some x → x.phase = .validate → s.blk.rv = true → s.blk.resp = some r →
    ∃ t, step s = .next t ∧ t.blk = s.blk ∧ t.chan = s.chan ∧ t.host.exchange = none
      ∧ (x.boardId.head? ≠ some r.bid →
          t.host.result = some .boardMismatch ∧ t.host.rejCode = s.host.rejCode ∧ t.host.data = s.host.data)
      ∧ (x.boardId.head? = some r.bid → r.code ≠ 0x30 →
          t.host.result = some (.deviceRejected r.code) ∧ t.host.rejCode = r.code ∧ t.host.data = s.host.data)
      ∧ (x.boardId.head? = some r.bid → r.code = 0x30 → r.cmd ≠ x.expectedCommandEcho →
          t.host.result = some .commandMismatch ∧ t.host.rejCode = s.host.rejCode ∧ t.host.data = s.host.data)
      ∧ (∀ d, x.boardId.head? = some r.bid → r.code = 0x30 → r.cmd = x.expectedCommandEcho →
          x.expectedEchoData = some d → r.dat ≠ d →
          t.host.result = some .echoMismatch ∧ t.host.rejCode = s.host.rejCode ∧ t.host.data = s.host.data)
      ∧ (x.boardId.head? = some r.bid → r.code = 0x30 → r.cmd = x.expectedCommandEcho →
          (x.expectedEchoData = none ∨ x.expectedEchoData = some r.dat) →
          t.host.result = some .ok ∧ t.host.rejCode = s.host.rejCode ∧ t.host.data = some r.dat)

/-- A whole exchange, for every request and every matching response: from a free machine with a clean channel, `EXEC`
with valid operands, a write that succeeds and a peer whose 20 bytes, free of delimiters before the last, arrive one per
read. If every read begins before the timeout, the exchange ends with the response's data field; if the first check finds
the timeout elapsed, it ends in `TimeoutError` with nothing read and nothing decoded. In both cases exactly the frame of
R83 has gone out (R210, R211, R201, R218; the numbers of steps are log 15, where the host keeps result and data is log 4,
both the model's; the timeout is the constant of log 18, of which nothing is assumed). -/
def Obligations.WholeExchange : Prop :=
  ∀ (s : State) (b s1 s2 s3 s4 : Byte) (cmd dat echo rdat : List Byte) (echoData : Option (List Byte))
    (ws : List WriteDraw) (es es' : List Nat) (ds : List ReadDraw),
    s.host.script = [] → s.blk.rxState ≠ .reading → s.blk.busy = false → s.host.exchange = none →
    s.chan.suspect = false → s.chan.pending = [] → s.chan.writes = .ok :: ws →
    cmd.length = 3 → dat.length = 8 → (∀ x ∈ [b] ++ cmd ++ dat, isPayloadChar x = true) →
    echo.length = 3 → rdat.length = 8 → (echoData = none ∨ echoData = some rdat) →
    let region := [b, 0x2C] ++ cmd ++ [0x2C] ++ dat ++ [0x2C]
    let p := [b, s1] ++ echo ++ [s2] ++ rdat ++ [s3, 0x30, s4]
    let raw := p ++ hex2 (checksum p) ++ [0x0A]
    (∀ x ∈ p, x ≠ 0x0A) →
    s.chan.clock = es ++ es' → es.length = 20 → es.Pairwise (· ≤ ·) →
    s.chan.answers = (raw.map fun x => .next [x]) ++ ds →
    ∃ t : State, exec (.exec [b] cmd dat echo echoData) s = .next t
      ∧ ((∀ e ∈ es, e < Config.rxTimeout) → ∃ u : State, Host.Core.run core 26 t = .next u
          ∧ u.host.exchange = none ∧ u.host.result = some .ok ∧ u.host.data = some rdat
          ∧ u.chan.sent = s.chan.sent ++ region ++ hex2 (checksum region) ++ [0x0A]
          ∧ u.blk.rxState = .complete ∧ u.blk.rxBuf = raw ∧ u.blk.rv = true ∧ u.blk.status = .ok)
      ∧ ((∀ e, es.head? = some e → Config.rxTimeout ≤ e) → ∃ u : State, Host.Core.run core 5 t = .next u
          ∧ u.host.exchange = none ∧ u.host.result = some .timeoutError ∧ u.host.data = none
          ∧ u.chan.sent = s.chan.sent ++ region ++ hex2 (checksum region) ++ [0x0A]
          ∧ u.chan.answers = s.chan.answers ∧ u.blk.rxState = .timedOut ∧ u.blk.rxBuf = [] ∧ u.blk.rv = false)

/-! ### The step -/

/-- A step runs the decoded instruction: with a coded word at the head of the script the step is `exec` of what it
decodes to, at the state with the line taken off and `OP` set where the word is an operation code; an uncoded host step
likewise; a word that is no instruction is refused (the script is the model's form of the host, log 1, 27). -/
def Obligations.StepRunsTheDecodedInstruction : Prop :=
  (∀ (s : State) (bytes : List Byte) (rest : List Move) (i : Instr), s.host.script = .word bytes :: rest →
    decode bytes = .ok i →
    step s = exec i { s with blk := { s.blk with op := (opCode i).getD s.blk.op }
                             host := { s.host with script := rest } })
  ∧ (∀ (s : State) (rest : List Move), s.host.script = .send :: rest →
    step s = exec .send { s with host := { s.host with script := rest } })
  ∧ (∀ (s : State) (rest : List Move) (bid cmd dat echo : List Byte) (echoData : Option (List Byte)),
    s.host.script = .exec bid cmd dat echo echoData :: rest →
    step s = exec (.exec bid cmd dat echo echoData) { s with host := { s.host with script := rest } })
  ∧ (∀ (s : State) (bytes : List Byte) (rest : List Move) (e : DecodeError), s.host.script = .word bytes :: rest →
    decode bytes = .error e → step s = .refused .notAnInstruction)

/-- A placed table word is what the next step runs, the script behind it is as before, and `OP` takes the word's code where
it is an operation code (R37; that an issue sets it so is log 27, the placing and the carrier are log 1, 13, all the
model's). -/
def Obligations.PlacedWordIsFetched : Prop :=
  ∀ (s : State) (nbits w : Nat) (i : Instr), decodeTableWord nbits w = some i →
    step (s.withFetchWord nbits w) = exec i { s with blk := { s.blk with op := (opCode i).getD s.blk.op } }

/-- The machine's own turn: an iteration while `RX_STATE = Reading` (R164), else a phase of the exchange in flight
(R211), else nothing (R261). It is taken when no line is left, on a `turn` line, and on a `wait` line for as long as
something is in flight (R233, R272; the lines are log 1). -/
def Obligations.TurnsOfTheMachine : Prop :=
  ∀ s : State,
    (s.blk.rxState = .reading → turn s = iterate s)
    ∧ (∀ x, s.blk.rxState ≠ .reading → s.host.exchange = some x → turn s = exchangeTurn x s)
    ∧ (s.blk.rxState ≠ .reading → s.host.exchange = none → turn s = .next s)
    ∧ (s.host.script = [] → step s = turn s)
    ∧ (∀ rest, s.host.script = .turn :: rest → step s = turn { s with host := { s.host with script := rest } })
    ∧ (∀ rest, s.host.script = .wait :: rest →
        (s.blk.rxState = .reading ∨ s.host.exchange.isSome = true → step s = turn s)
        ∧ (s.blk.rxState ≠ .reading → s.host.exchange = none →
            step s = .next { s with host := { s.host with script := rest } }))

/-- A write of an operand register changes that register alone, at any time (R45, R67, R266): of the whole state nothing
else changes but the line taken off the script (log 1) and the model's own mark that the register was written (log 2). -/
def Obligations.SetWritesOneRegister : Prop :=
  ∀ (s : State) (rest : List Move) (v : List Byte) (n : Nat),
    let w := s.host.written
    let host (written : Written) : HostSide := { s.host with script := rest, written := written }
    (s.host.script = .act (.setBid v) :: rest →
      step s = .next { s with blk := { s.blk with aBid := v }, host := host { w with bid := true } })
    ∧ (s.host.script = .act (.setCmd v) :: rest →
      step s = .next { s with blk := { s.blk with aCmd := v }, host := host { w with cmd := true } })
    ∧ (s.host.script = .act (.setDat v) :: rest →
      step s = .next { s with blk := { s.blk with aDat := v }, host := host { w with dat := true } })
    ∧ (s.host.script = .act (.setTmo n) :: rest →
      step s = .next { s with blk := { s.blk with aTmo := n }, host := host { w with tmo := true } })

/-- A `CHK` line on a response under `RV = 1` makes the checks it names, one or several combined (R99), each in the meaning
of R213 to R217, in their order: all pass, and the result is `Ok`; or the first that fails is the result and those after it
are not made (Program B of 95_test_vectors.md). It keeps the code of a rejection (R216) and changes nothing else; without a
response it is refused (R36, R48). That check 1 reads `A_BID` on such a line is log 22, where the host keeps the result is
log 4, both the model's. -/
def Obligations.ChkMakesItsChecksInOrder : Prop :=
  ∀ (s : State) (rest : List Move) (c : Check) (more : List Check), s.host.script = .act (.chk c more) :: rest →
    s.blk.busy = false → s.host.exchange = none →
    (s.blk.rv = false → step s = .refused .noResponse)
    ∧ ∀ r, s.blk.rv = true → s.blk.resp = some r →
      let one (k : Check) : ResultCode := match k with
        | .bid => if s.blk.aBid.head? = some r.bid then .ok else .boardMismatch
        | .code => if r.code = 0x30 then .ok else .deviceRejected r.code
        | .cmd e => if r.cmd = e then .ok else .commandMismatch
        | .dat d => if r.dat = d then .ok else .echoMismatch
      let outcome (e : ResultCode) (rej : Byte) : Result :=
        .next { s with host := { s.host with script := rest, result := some e, rejCode := rej } }
      ((∀ k ∈ c :: more, one k = .ok) → step s = outcome .ok s.host.rejCode)
      ∧ ∀ pre k post, c :: more = pre ++ k :: post → (∀ j ∈ pre, one j = .ok) → one k ≠ .ok →
          step s = outcome (one k) (if k = .code then r.code else s.host.rejCode)

/-- The operand registers are written by the host only: by its `SET` lines, by its `EXEC` (which also sets `A_TMO` when
it starts the receive), and by reset, which leaves them unspecified (R47; a free value, log 2); no operation of the block
writes them (R21 to R24, R45). -/
def Obligations.BlockNeverWritesOperands : Prop :=
  ∀ s t : State, step s = .next t →
    (t.blk.aBid ≠ s.blk.aBid ∨ t.blk.aCmd ≠ s.blk.aCmd ∨ t.blk.aDat ≠ s.blk.aDat →
      ∃ rest, (∃ v, s.host.script = .act (.setBid v) :: rest ∨ s.host.script = .act (.setCmd v) :: rest
          ∨ s.host.script = .act (.setDat v) :: rest)
        ∨ (∃ bid cmd dat echo ed, s.host.script = .exec bid cmd dat echo ed :: rest)
        ∨ s.host.script = .act .reset :: rest)
    ∧ (t.blk.aTmo ≠ s.blk.aTmo →
      (∃ rest, (∃ n, s.host.script = .act (.setTmo n) :: rest) ∨ s.host.script = .act .reset :: rest)
      ∨ ∃ x, s.host.exchange = some x ∧ x.phase = .receive)

/-- `TXBUF` is immutable once built (R25, R26 with the spec's decision D18): a step leaves it and `TXV`; or the step is an
`ENC`, issued by a word or by an exchange, and the frame of the present operands is there, or none where they have none; or
the step is the reset event, and none is there. Lines and phases are log 1, 15. -/
def Obligations.FrameChangesOnlyByEncode : Prop :=
  ∀ s t : State, step s = .next t →
    (t.blk.txbuf = s.blk.txbuf ∧ t.blk.txv = s.blk.txv)
    ∨ (((∃ bytes rest, s.host.script = .word bytes :: rest ∧ decode bytes = .ok .enc)
          ∨ ((s.host.script = [] ∨ ∃ rest, s.host.script = .turn :: rest ∨ s.host.script = .wait :: rest)
            ∧ s.blk.rxState ≠ .reading ∧ ∃ x, s.host.exchange = some x ∧ x.phase = .encode))
        ∧ ((∃ f, encodeFrame s.blk.aBid s.blk.aCmd s.blk.aDat = .ok f ∧ t.blk.txbuf = some f ∧ t.blk.txv = true)
          ∨ (∃ e, encodeFrame s.blk.aBid s.blk.aCmd s.blk.aDat = .error e ∧ t.blk.txbuf = none ∧ t.blk.txv = false)))
    ∨ ((∃ rest, s.host.script = .act .reset :: rest) ∧ t.blk.txbuf = none ∧ t.blk.txv = false)

/-- What has gone out to the peer only grows, and only by a frame or a prefix of one: of `TXBUF`, or of an `OUT18` word
(R61, R151; that the word is written is log 11). That what goes out in a failed write is a prefix is log 10, the model's
choice after U10, where N16 has the source say nothing of it. -/
def Obligations.OnlyFramesGoOut : Prop :=
  ∀ s t : State, step s = .next t →
    ∃ f n, t.chan.sent = s.chan.sent ++ f.take n
      ∧ (n = 0 ∨ memRead .txbuf 0 18 s.blk = some f
        ∨ ∃ bytes rest b c d h l, s.host.script = .word bytes :: rest ∧ decode bytes = .ok (.out18 b c d h l)
            ∧ f = bytes)

/-- A host read gives the value of the register it names and changes nothing: `TXBUF` is read only under `TXV = 1` and the
response registers only under `RV = 1`, otherwise the read is refused (R26, R36, R45, R67, R275; R48 with the spec's
decision D7). That `TXBUF`, the operands and the response registers are read while `BUSY = 1` as well, where R275 lists
them for `BUSY = 0` only, is log 22; that an operand never written since reset reads as a free value, where R48, R239 and
U8 say it holds none and cannot be read, is log 2; that the host keeps the value it read is log 4, all the model's. -/
def Obligations.ReadsGiveTheRegister : Prop :=
  ∀ (s : State) (rest : List Move) (r : HostReg), s.host.script = .act (.read r) :: rest →
    let gives (v : RegValue) : Prop := step s = .next { s with host := { s.host with script := rest, seen := some v } }
    (s.blk.txv = false → r = .txbuf → step s = .refused .notObservable)
    ∧ (s.blk.rv = false → r = .rBid ∨ r = .rCmd ∨ r = .rDat ∨ r = .rCode → step s = .refused .notObservable)
    ∧ (r = .aBid → gives (.bytes s.blk.aBid))
    ∧ (r = .aCmd → gives (.bytes s.blk.aCmd))
    ∧ (r = .aDat → gives (.bytes s.blk.aDat))
    ∧ (∀ f, s.blk.txv = true → s.blk.txbuf = some f → r = .txbuf → gives (.bytes f))
    ∧ (r = .txv → gives (.flag s.blk.txv))
    ∧ (r = .rxState → gives (.rx s.blk.rxState))
    ∧ (r = .rxBuf → gives (.bytes s.blk.rxBuf))
    ∧ (∀ p, s.blk.rv = true → s.blk.resp = some p →
        (r = .rBid → gives (.bytes [p.bid])) ∧ (r = .rCmd → gives (.bytes p.cmd))
        ∧ (r = .rDat → gives (.bytes p.dat)) ∧ (r = .rCode → gives (.bytes [p.code])))
    ∧ (r = .rv → gives (.flag s.blk.rv))
    ∧ (r = .rTmo → gives (.flag s.blk.rTmo))
    ∧ (r = .busy → gives (.flag s.blk.busy))
    ∧ (r = .status → gives (.code s.blk.status))

/-! ### Reset and the invariant -/

/-- The values R47 gives (the spec's decision D7), after power-on and after a reset event in any state; the event does
not touch the channel (R260). Nothing is said of the registers R47 leaves unspecified. -/
def Obligations.ResetValues : Prop :=
  (∀ n, (Block.reset n).txv = false ∧ (Block.reset n).rxState = .idle ∧ (Block.reset n).rxBuf = []
    ∧ (Block.reset n).rxTmo = 0 ∧ (Block.reset n).rxLastE = 0 ∧ (Block.reset n).rv = false
    ∧ (Block.reset n).rTmo = false ∧ (Block.reset n).busy = false ∧ (Block.reset n).status = .ok)
  ∧ State.reset.blk = Block.reset 0
  ∧ ∀ (s : State) (rest : List Move), s.host.script = .act .reset :: rest →
    ∃ t, step s = .next t ∧ (∃ n, t.blk = Block.reset n) ∧ t.chan = s.chan ∧ t.host.script = rest

/-- The machine after power-on meets the invariant. -/
def Obligations.ResetMeetsTheInvariant : Prop := Inv State.reset

/-- Every step keeps the invariant: `BUSY` exactly while `Reading` (R37), a valid frame under `TXV` (R26, R137), the
receive buffer as R171 says, the response that of the current buffer (R36), `R_TMO` as R197 says, `STATUS` a block's
code (R91), and the host's place in an exchange. -/
def Obligations.StepKeepsTheInvariant : Prop :=
  ∀ s t : State, Inv s → step s = .next t → Inv t

/-- A host and a time source that keep their duties are never refused and never stopped (R219, R265, R267, R275): from
every state that meets the invariant, every safe run goes on, and keeps the invariant. -/
def Obligations.DutifulRunsNeverStop : Prop :=
  ∀ (n : Nat) (s : State), Inv s → SafeRun n s → ∃ t : State, Host.Core.run core n s = .next t ∧ Inv t
end

