-- ==== Sys2Proof/Laws/State.lean ====
section
/-! SUPPORT. One lemma per field per update of State, true by rfl: no later proof unfolds a record update. -/

namespace Sys2Proof.Machine

/-! #### Block.installFrame -/

section
variable (f : List Byte) (b : Block)
@[simp] theorem Block.installFrame_aBid : (b.installFrame f).aBid = b.aBid := rfl
@[simp] theorem Block.installFrame_aCmd : (b.installFrame f).aCmd = b.aCmd := rfl
@[simp] theorem Block.installFrame_aDat : (b.installFrame f).aDat = b.aDat := rfl
@[simp] theorem Block.installFrame_aTmo : (b.installFrame f).aTmo = b.aTmo := rfl
@[simp] theorem Block.installFrame_txbuf : (b.installFrame f).txbuf = some f := rfl
@[simp] theorem Block.installFrame_txv : (b.installFrame f).txv = true := rfl
@[simp] theorem Block.installFrame_rxState : (b.installFrame f).rxState = b.rxState := rfl
@[simp] theorem Block.installFrame_rxBuf : (b.installFrame f).rxBuf = b.rxBuf := rfl
@[simp] theorem Block.installFrame_rxTmo : (b.installFrame f).rxTmo = b.rxTmo := rfl
@[simp] theorem Block.installFrame_rxLastE : (b.installFrame f).rxLastE = b.rxLastE := rfl
@[simp] theorem Block.installFrame_resp : (b.installFrame f).resp = b.resp := rfl
@[simp] theorem Block.installFrame_rv : (b.installFrame f).rv = b.rv := rfl
@[simp] theorem Block.installFrame_rTmo : (b.installFrame f).rTmo = b.rTmo := rfl
@[simp] theorem Block.installFrame_op : (b.installFrame f).op = b.op := rfl
@[simp] theorem Block.installFrame_busy : (b.installFrame f).busy = b.busy := rfl
@[simp] theorem Block.installFrame_status : (b.installFrame f).status = .ok := rfl
end

/-! #### Block.dropFrame -/

section
variable (e : ResultCode) (b : Block)
@[simp] theorem Block.dropFrame_aBid : (b.dropFrame e).aBid = b.aBid := rfl
@[simp] theorem Block.dropFrame_aCmd : (b.dropFrame e).aCmd = b.aCmd := rfl
@[simp] theorem Block.dropFrame_aDat : (b.dropFrame e).aDat = b.aDat := rfl
@[simp] theorem Block.dropFrame_aTmo : (b.dropFrame e).aTmo = b.aTmo := rfl
@[simp] theorem Block.dropFrame_txbuf : (b.dropFrame e).txbuf = none := rfl
@[simp] theorem Block.dropFrame_txv : (b.dropFrame e).txv = false := rfl
@[simp] theorem Block.dropFrame_rxState : (b.dropFrame e).rxState = b.rxState := rfl
@[simp] theorem Block.dropFrame_rxBuf : (b.dropFrame e).rxBuf = b.rxBuf := rfl
@[simp] theorem Block.dropFrame_rxTmo : (b.dropFrame e).rxTmo = b.rxTmo := rfl
@[simp] theorem Block.dropFrame_rxLastE : (b.dropFrame e).rxLastE = b.rxLastE := rfl
@[simp] theorem Block.dropFrame_resp : (b.dropFrame e).resp = b.resp := rfl
@[simp] theorem Block.dropFrame_rv : (b.dropFrame e).rv = b.rv := rfl
@[simp] theorem Block.dropFrame_rTmo : (b.dropFrame e).rTmo = b.rTmo := rfl
@[simp] theorem Block.dropFrame_op : (b.dropFrame e).op = b.op := rfl
@[simp] theorem Block.dropFrame_busy : (b.dropFrame e).busy = b.busy := rfl
@[simp] theorem Block.dropFrame_status : (b.dropFrame e).status = e := rfl
end

/-! #### Block.startReceive -/

section
variable (b : Block)
@[simp] theorem Block.startReceive_aBid : (b.startReceive).aBid = b.aBid := rfl
@[simp] theorem Block.startReceive_aCmd : (b.startReceive).aCmd = b.aCmd := rfl
@[simp] theorem Block.startReceive_aDat : (b.startReceive).aDat = b.aDat := rfl
@[simp] theorem Block.startReceive_aTmo : (b.startReceive).aTmo = b.aTmo := rfl
@[simp] theorem Block.startReceive_txbuf : (b.startReceive).txbuf = b.txbuf := rfl
@[simp] theorem Block.startReceive_txv : (b.startReceive).txv = b.txv := rfl
@[simp] theorem Block.startReceive_rxState : (b.startReceive).rxState = .reading := rfl
@[simp] theorem Block.startReceive_rxBuf : (b.startReceive).rxBuf = [] := rfl
@[simp] theorem Block.startReceive_rxTmo : (b.startReceive).rxTmo = b.aTmo := rfl
@[simp] theorem Block.startReceive_rxLastE : (b.startReceive).rxLastE = 0 := rfl
@[simp] theorem Block.startReceive_resp : (b.startReceive).resp = none := rfl
@[simp] theorem Block.startReceive_rv : (b.startReceive).rv = false := rfl
@[simp] theorem Block.startReceive_rTmo : (b.startReceive).rTmo = false := rfl
@[simp] theorem Block.startReceive_op : (b.startReceive).op = b.op := rfl
@[simp] theorem Block.startReceive_busy : (b.startReceive).busy = true := rfl
@[simp] theorem Block.startReceive_status : (b.startReceive).status = b.status := rfl
end

/-! #### Block.sampleTime -/

section
variable (e : Nat) (b : Block)
@[simp] theorem Block.sampleTime_aBid : (b.sampleTime e).aBid = b.aBid := rfl
@[simp] theorem Block.sampleTime_aCmd : (b.sampleTime e).aCmd = b.aCmd := rfl
@[simp] theorem Block.sampleTime_aDat : (b.sampleTime e).aDat = b.aDat := rfl
@[simp] theorem Block.sampleTime_aTmo : (b.sampleTime e).aTmo = b.aTmo := rfl
@[simp] theorem Block.sampleTime_txbuf : (b.sampleTime e).txbuf = b.txbuf := rfl
@[simp] theorem Block.sampleTime_txv : (b.sampleTime e).txv = b.txv := rfl
@[simp] theorem Block.sampleTime_rxState : (b.sampleTime e).rxState = b.rxState := rfl
@[simp] theorem Block.sampleTime_rxBuf : (b.sampleTime e).rxBuf = b.rxBuf := rfl
@[simp] theorem Block.sampleTime_rxTmo : (b.sampleTime e).rxTmo = b.rxTmo := rfl
@[simp] theorem Block.sampleTime_rxLastE : (b.sampleTime e).rxLastE = e := rfl
@[simp] theorem Block.sampleTime_resp : (b.sampleTime e).resp = b.resp := rfl
@[simp] theorem Block.sampleTime_rv : (b.sampleTime e).rv = b.rv := rfl
@[simp] theorem Block.sampleTime_rTmo : (b.sampleTime e).rTmo = b.rTmo := rfl
@[simp] theorem Block.sampleTime_op : (b.sampleTime e).op = b.op := rfl
@[simp] theorem Block.sampleTime_busy : (b.sampleTime e).busy = b.busy := rfl
@[simp] theorem Block.sampleTime_status : (b.sampleTime e).status = b.status := rfl
end

/-! #### Block.appendByte -/

section
variable (x : Byte) (b : Block)
@[simp] theorem Block.appendByte_aBid : (b.appendByte x).aBid = b.aBid := rfl
@[simp] theorem Block.appendByte_aCmd : (b.appendByte x).aCmd = b.aCmd := rfl
@[simp] theorem Block.appendByte_aDat : (b.appendByte x).aDat = b.aDat := rfl
@[simp] theorem Block.appendByte_aTmo : (b.appendByte x).aTmo = b.aTmo := rfl
@[simp] theorem Block.appendByte_txbuf : (b.appendByte x).txbuf = b.txbuf := rfl
@[simp] theorem Block.appendByte_txv : (b.appendByte x).txv = b.txv := rfl
@[simp] theorem Block.appendByte_rxState : (b.appendByte x).rxState = b.rxState := rfl
@[simp] theorem Block.appendByte_rxBuf : (b.appendByte x).rxBuf = b.rxBuf ++ [x] := rfl
@[simp] theorem Block.appendByte_rxTmo : (b.appendByte x).rxTmo = b.rxTmo := rfl
@[simp] theorem Block.appendByte_rxLastE : (b.appendByte x).rxLastE = b.rxLastE := rfl
@[simp] theorem Block.appendByte_resp : (b.appendByte x).resp = b.resp := rfl
@[simp] theorem Block.appendByte_rv : (b.appendByte x).rv = b.rv := rfl
@[simp] theorem Block.appendByte_rTmo : (b.appendByte x).rTmo = b.rTmo := rfl
@[simp] theorem Block.appendByte_op : (b.appendByte x).op = b.op := rfl
@[simp] theorem Block.appendByte_busy : (b.appendByte x).busy = b.busy := rfl
@[simp] theorem Block.appendByte_status : (b.appendByte x).status = b.status := rfl
end

/-! #### Block.endReceive -/

section
variable (st : RxState) (c : ResultCode) (b : Block)
@[simp] theorem Block.endReceive_aBid : (b.endReceive st c).aBid = b.aBid := rfl
@[simp] theorem Block.endReceive_aCmd : (b.endReceive st c).aCmd = b.aCmd := rfl
@[simp] theorem Block.endReceive_aDat : (b.endReceive st c).aDat = b.aDat := rfl
@[simp] theorem Block.endReceive_aTmo : (b.endReceive st c).aTmo = b.aTmo := rfl
@[simp] theorem Block.endReceive_txbuf : (b.endReceive st c).txbuf = b.txbuf := rfl
@[simp] theorem Block.endReceive_txv : (b.endReceive st c).txv = b.txv := rfl
@[simp] theorem Block.endReceive_rxState : (b.endReceive st c).rxState = st := rfl
@[simp] theorem Block.endReceive_rxBuf : (b.endReceive st c).rxBuf = b.rxBuf := rfl
@[simp] theorem Block.endReceive_rxTmo : (b.endReceive st c).rxTmo = b.rxTmo := rfl
@[simp] theorem Block.endReceive_rxLastE : (b.endReceive st c).rxLastE = b.rxLastE := rfl
@[simp] theorem Block.endReceive_resp : (b.endReceive st c).resp = b.resp := rfl
@[simp] theorem Block.endReceive_rv : (b.endReceive st c).rv = b.rv := rfl
@[simp] theorem Block.endReceive_rTmo : (b.endReceive st c).rTmo = b.rTmo := rfl
@[simp] theorem Block.endReceive_op : (b.endReceive st c).op = b.op := rfl
@[simp] theorem Block.endReceive_busy : (b.endReceive st c).busy = false := rfl
@[simp] theorem Block.endReceive_status : (b.endReceive st c).status = c := rfl
end

/-! #### Block.installResponse -/

section
variable (r : Response) (b : Block)
@[simp] theorem Block.installResponse_aBid : (b.installResponse r).aBid = b.aBid := rfl
@[simp] theorem Block.installResponse_aCmd : (b.installResponse r).aCmd = b.aCmd := rfl
@[simp] theorem Block.installResponse_aDat : (b.installResponse r).aDat = b.aDat := rfl
@[simp] theorem Block.installResponse_aTmo : (b.installResponse r).aTmo = b.aTmo := rfl
@[simp] theorem Block.installResponse_txbuf : (b.installResponse r).txbuf = b.txbuf := rfl
@[simp] theorem Block.installResponse_txv : (b.installResponse r).txv = b.txv := rfl
@[simp] theorem Block.installResponse_rxState : (b.installResponse r).rxState = b.rxState := rfl
@[simp] theorem Block.installResponse_rxBuf : (b.installResponse r).rxBuf = b.rxBuf := rfl
@[simp] theorem Block.installResponse_rxTmo : (b.installResponse r).rxTmo = b.rxTmo := rfl
@[simp] theorem Block.installResponse_rxLastE : (b.installResponse r).rxLastE = b.rxLastE := rfl
@[simp] theorem Block.installResponse_resp : (b.installResponse r).resp = some r := rfl
@[simp] theorem Block.installResponse_rv : (b.installResponse r).rv = true := rfl
@[simp] theorem Block.installResponse_rTmo : (b.installResponse r).rTmo = peerTimeout r.cmd := rfl
@[simp] theorem Block.installResponse_op : (b.installResponse r).op = b.op := rfl
@[simp] theorem Block.installResponse_busy : (b.installResponse r).busy = b.busy := rfl
@[simp] theorem Block.installResponse_status : (b.installResponse r).status = .ok := rfl
end

/-! #### Block.dropResponse -/

section
variable (e : ResultCode) (b : Block)
@[simp] theorem Block.dropResponse_aBid : (b.dropResponse e).aBid = b.aBid := rfl
@[simp] theorem Block.dropResponse_aCmd : (b.dropResponse e).aCmd = b.aCmd := rfl
@[simp] theorem Block.dropResponse_aDat : (b.dropResponse e).aDat = b.aDat := rfl
@[simp] theorem Block.dropResponse_aTmo : (b.dropResponse e).aTmo = b.aTmo := rfl
@[simp] theorem Block.dropResponse_txbuf : (b.dropResponse e).txbuf = b.txbuf := rfl
@[simp] theorem Block.dropResponse_txv : (b.dropResponse e).txv = b.txv := rfl
@[simp] theorem Block.dropResponse_rxState : (b.dropResponse e).rxState = b.rxState := rfl
@[simp] theorem Block.dropResponse_rxBuf : (b.dropResponse e).rxBuf = b.rxBuf := rfl
@[simp] theorem Block.dropResponse_rxTmo : (b.dropResponse e).rxTmo = b.rxTmo := rfl
@[simp] theorem Block.dropResponse_rxLastE : (b.dropResponse e).rxLastE = b.rxLastE := rfl
@[simp] theorem Block.dropResponse_resp : (b.dropResponse e).resp = none := rfl
@[simp] theorem Block.dropResponse_rv : (b.dropResponse e).rv = false := rfl
@[simp] theorem Block.dropResponse_rTmo : (b.dropResponse e).rTmo = false := rfl
@[simp] theorem Block.dropResponse_op : (b.dropResponse e).op = b.op := rfl
@[simp] theorem Block.dropResponse_busy : (b.dropResponse e).busy = b.busy := rfl
@[simp] theorem Block.dropResponse_status : (b.dropResponse e).status = e := rfl
end

/-! #### State.mapBlock -/

section
variable (f : Block → Block) (s : State)
@[simp] theorem State.mapBlock_blk : (s.mapBlock f).blk = f s.blk := rfl
@[simp] theorem State.mapBlock_chan : (s.mapBlock f).chan = s.chan := rfl
@[simp] theorem State.mapBlock_host : (s.mapBlock f).host = s.host := rfl
@[simp] theorem State.mapBlock_free : (s.mapBlock f).free = s.free := rfl
end

/-! #### HostSide.returns -/

section
variable (c : ResultCode) (h : HostSide)
@[simp] theorem HostSide.returns_script : (h.returns c).script = h.script := rfl
@[simp] theorem HostSide.returns_exchange : (h.returns c).exchange = h.exchange := rfl
@[simp] theorem HostSide.returns_result : (h.returns c).result = some c := rfl
@[simp] theorem HostSide.returns_data : (h.returns c).data = h.data := rfl
@[simp] theorem HostSide.returns_seen : (h.returns c).seen = h.seen := rfl
@[simp] theorem HostSide.returns_written : (h.returns c).written = h.written := rfl
@[simp] theorem HostSide.returns_rejCode : (h.returns c).rejCode = (match c with | .deviceRejected k => k | _ => h.rejCode) := rfl
end

/-! #### popScript -/

section
variable (s : State)
@[simp] theorem popScript_blk : (popScript s).blk = s.blk := rfl
@[simp] theorem popScript_chan : (popScript s).chan = s.chan := rfl
@[simp] theorem popScript_free : (popScript s).free = s.free := rfl
@[simp] theorem popScript_script : (popScript s).host.script = s.host.script.tail := rfl
@[simp] theorem popScript_exchange : (popScript s).host.exchange = s.host.exchange := rfl
@[simp] theorem popScript_rejCode : (popScript s).host.rejCode = s.host.rejCode := rfl
@[simp] theorem popScript_result : (popScript s).host.result = s.host.result := rfl
@[simp] theorem popScript_data : (popScript s).host.data = s.host.data := rfl
@[simp] theorem popScript_seen : (popScript s).host.seen = s.host.seen := rfl
@[simp] theorem popScript_written : (popScript s).host.written = s.host.written := rfl
end

/-! #### peerSends -/

section
variable (bytes : List Byte) (s : State)
@[simp] theorem peerSends_blk : (peerSends bytes s).blk = s.blk := rfl
@[simp] theorem peerSends_host : (peerSends bytes s).host = s.host := rfl
@[simp] theorem peerSends_free : (peerSends bytes s).free = s.free := rfl
@[simp] theorem peerSends_pending : (peerSends bytes s).chan.pending = s.chan.pending ++ bytes := rfl
@[simp] theorem peerSends_answers : (peerSends bytes s).chan.answers = s.chan.answers := rfl
@[simp] theorem peerSends_writes : (peerSends bytes s).chan.writes = s.chan.writes := rfl
@[simp] theorem peerSends_clock : (peerSends bytes s).chan.clock = s.chan.clock := rfl
@[simp] theorem peerSends_suspect : (peerSends bytes s).chan.suspect = s.chan.suspect := rfl
@[simp] theorem peerSends_sent : (peerSends bytes s).chan.sent = s.chan.sent := rfl
end

/-! #### resetEvent -/

section
variable (s : State)
@[simp] theorem resetEvent_blk : (resetEvent s).blk = Block.reset s.free := rfl
@[simp] theorem resetEvent_chan : (resetEvent s).chan = s.chan := rfl
@[simp] theorem resetEvent_script : (resetEvent s).host.script = s.host.script := rfl
@[simp] theorem resetEvent_exchange : (resetEvent s).host.exchange = none := rfl
@[simp] theorem resetEvent_result : (resetEvent s).host.result = none := rfl
@[simp] theorem resetEvent_rejCode : (resetEvent s).host.rejCode = s.host.rejCode := rfl
end

/-! #### advance -/

section
variable (p : Phase) (x : Exchange) (s : State)
@[simp] theorem advance_blk : (advance p x s).blk = s.blk := rfl
@[simp] theorem advance_chan : (advance p x s).chan = s.chan := rfl
@[simp] theorem advance_free : (advance p x s).free = s.free := rfl
@[simp] theorem advance_exchange : (advance p x s).host.exchange = some { x with phase := p } := rfl
@[simp] theorem advance_script : (advance p x s).host.script = s.host.script := rfl
@[simp] theorem advance_rejCode : (advance p x s).host.rejCode = s.host.rejCode := rfl
@[simp] theorem advance_result : (advance p x s).host.result = s.host.result := rfl
@[simp] theorem advance_data : (advance p x s).host.data = s.host.data := rfl
@[simp] theorem advance_seen : (advance p x s).host.seen = s.host.seen := rfl
@[simp] theorem advance_written : (advance p x s).host.written = s.host.written := rfl
end

/-! #### endExchange -/

section
variable (c : ResultCode) (s : State)
@[simp] theorem endExchange_blk : (endExchange c s).blk = s.blk := rfl
@[simp] theorem endExchange_chan : (endExchange c s).chan = s.chan := rfl
@[simp] theorem endExchange_free : (endExchange c s).free = s.free := rfl
@[simp] theorem endExchange_exchange : (endExchange c s).host.exchange = none := rfl
@[simp] theorem endExchange_result : (endExchange c s).host.result = some c := rfl
@[simp] theorem endExchange_script : (endExchange c s).host.script = s.host.script := rfl
@[simp] theorem endExchange_data : (endExchange c s).host.data = s.host.data := rfl
end

/-! #### startReceive -/

section
variable (s : State)
@[simp] theorem startReceive_blk : (startReceive s).blk = s.blk.startReceive := rfl
@[simp] theorem startReceive_chan : (startReceive s).chan = s.chan := rfl
@[simp] theorem startReceive_host : (startReceive s).host = s.host := rfl
@[simp] theorem startReceive_free : (startReceive s).free = s.free := rfl
end

/-! #### startExchange -/

section
variable (bid cmd dat echo : List Byte) (ed : Option (List Byte)) (s : State)
@[simp] theorem startExchange_aBid : (startExchange bid cmd dat echo ed s).blk.aBid = bid := rfl
@[simp] theorem startExchange_aCmd : (startExchange bid cmd dat echo ed s).blk.aCmd = cmd := rfl
@[simp] theorem startExchange_aDat : (startExchange bid cmd dat echo ed s).blk.aDat = dat := rfl
@[simp] theorem startExchange_aTmo : (startExchange bid cmd dat echo ed s).blk.aTmo = s.blk.aTmo := rfl
@[simp] theorem startExchange_txbuf : (startExchange bid cmd dat echo ed s).blk.txbuf = s.blk.txbuf := rfl
@[simp] theorem startExchange_txv : (startExchange bid cmd dat echo ed s).blk.txv = s.blk.txv := rfl
@[simp] theorem startExchange_rxState : (startExchange bid cmd dat echo ed s).blk.rxState = s.blk.rxState := rfl
@[simp] theorem startExchange_rxBuf : (startExchange bid cmd dat echo ed s).blk.rxBuf = s.blk.rxBuf := rfl
@[simp] theorem startExchange_rxTmo : (startExchange bid cmd dat echo ed s).blk.rxTmo = s.blk.rxTmo := rfl
@[simp] theorem startExchange_rxLastE : (startExchange bid cmd dat echo ed s).blk.rxLastE = s.blk.rxLastE := rfl
@[simp] theorem startExchange_resp : (startExchange bid cmd dat echo ed s).blk.resp = s.blk.resp := rfl
@[simp] theorem startExchange_rv : (startExchange bid cmd dat echo ed s).blk.rv = s.blk.rv := rfl
@[simp] theorem startExchange_rTmo : (startExchange bid cmd dat echo ed s).blk.rTmo = s.blk.rTmo := rfl
@[simp] theorem startExchange_op : (startExchange bid cmd dat echo ed s).blk.op = s.blk.op := rfl
@[simp] theorem startExchange_busy : (startExchange bid cmd dat echo ed s).blk.busy = s.blk.busy := rfl
@[simp] theorem startExchange_status : (startExchange bid cmd dat echo ed s).blk.status = s.blk.status := rfl
@[simp] theorem startExchange_chan : (startExchange bid cmd dat echo ed s).chan = s.chan := rfl
@[simp] theorem startExchange_free : (startExchange bid cmd dat echo ed s).free = s.free := rfl
@[simp] theorem startExchange_exchange : (startExchange bid cmd dat echo ed s).host.exchange = some ⟨bid, cmd, dat, echo, ed, .encode⟩ := rfl
@[simp] theorem startExchange_script : (startExchange bid cmd dat echo ed s).host.script = s.host.script := rfl
end

/-! #### setTimeout -/

section
variable (n : Nat) (s : State)
@[simp] theorem setTimeout_aBid : (setTimeout n s).blk.aBid = s.blk.aBid := rfl
@[simp] theorem setTimeout_aCmd : (setTimeout n s).blk.aCmd = s.blk.aCmd := rfl
@[simp] theorem setTimeout_aDat : (setTimeout n s).blk.aDat = s.blk.aDat := rfl
@[simp] theorem setTimeout_aTmo : (setTimeout n s).blk.aTmo = n := rfl
@[simp] theorem setTimeout_txbuf : (setTimeout n s).blk.txbuf = s.blk.txbuf := rfl
@[simp] theorem setTimeout_txv : (setTimeout n s).blk.txv = s.blk.txv := rfl
@[simp] theorem setTimeout_rxState : (setTimeout n s).blk.rxState = s.blk.rxState := rfl
@[simp] theorem setTimeout_rxBuf : (setTimeout n s).blk.rxBuf = s.blk.rxBuf := rfl
@[simp] theorem setTimeout_rxTmo : (setTimeout n s).blk.rxTmo = s.blk.rxTmo := rfl
@[simp] theorem setTimeout_rxLastE : (setTimeout n s).blk.rxLastE = s.blk.rxLastE := rfl
@[simp] theorem setTimeout_resp : (setTimeout n s).blk.resp = s.blk.resp := rfl
@[simp] theorem setTimeout_rv : (setTimeout n s).blk.rv = s.blk.rv := rfl
@[simp] theorem setTimeout_rTmo : (setTimeout n s).blk.rTmo = s.blk.rTmo := rfl
@[simp] theorem setTimeout_op : (setTimeout n s).blk.op = s.blk.op := rfl
@[simp] theorem setTimeout_busy : (setTimeout n s).blk.busy = s.blk.busy := rfl
@[simp] theorem setTimeout_status : (setTimeout n s).blk.status = s.blk.status := rfl
@[simp] theorem setTimeout_chan : (setTimeout n s).chan = s.chan := rfl
@[simp] theorem setTimeout_free : (setTimeout n s).free = s.free := rfl
@[simp] theorem setTimeout_exchange : (setTimeout n s).host.exchange = s.host.exchange := rfl
@[simp] theorem setTimeout_script : (setTimeout n s).host.script = s.host.script := rfl
end

end Sys2Proof.Machine
end

