-- ==== Sys2Proof/Laws/Ops.lean ====
section
/-! SUPPORT. One lemma per shared operation that says what it can do; the provers cite it instead of unfolding. -/

namespace Sys2Proof.Machine

/-! ### The issue guard and the other preconditions -/

theorem whenFree_next {s t : State} {k : Result} :
    whenFree s k = .next t ↔ s.blk.busy = false ∧ s.host.exchange = none ∧ k = .next t := by
  unfold whenFree
  cases s.blk.busy <;> cases s.host.exchange <;> simp

theorem whenFree_of_free {s : State} (k : Result) (hb : s.blk.busy = false) (hx : s.host.exchange = none) :
    whenFree s k = k := by simp [whenFree, hb, hx]

theorem whenComplete_next {s t : State} {k : Result} :
    whenComplete s k = .next t ↔ s.blk.rxState = .complete ∧ k = .next t := by
  unfold whenComplete
  split <;> simp [*]

theorem withResponse_next {s t : State} {k : Response → Result} :
    withResponse s k = .next t ↔ ∃ r, s.blk.response? = some r ∧ k r = .next t := by
  unfold withResponse
  cases s.blk.response? <;> simp

theorem withFrame_next {s t : State} {k : List Byte → Result} :
    withFrame s k = .next t ↔ ∃ f, memRead .txbuf 0 outLen s.blk = some f ∧ k f = .next t := by
  unfold withFrame
  cases memRead .txbuf 0 outLen s.blk <;> simp

/-- `MemRead(TXBUF + 0, 18)` is the frame that `TXBUF` holds under `TXV = 1`. -/
theorem memRead_txbuf {b : Block} {f : List Byte} (hv : b.txv = true) (hf : b.txbuf = some f)
    (hl : f.length = outLen) : memRead .txbuf 0 outLen b = some f := by
  have : slice f 0 outLen = f := by simp [slice, ← hl]
  simp [memRead, spaceBytes, Block.frame?, hv, hf, hl, this]

/-! ### Raising an error -/

/-- Raising an error touches neither the channel nor the script nor the free values. -/
theorem raise_frame (e : ResultCode) (s : State) :
    (raise e s).chan = s.chan ∧ (raise e s).free = s.free ∧ (raise e s).host.script = s.host.script
      ∧ (raise e s).host.exchange = s.host.exchange ∧ (raise e s).host.written = s.host.written := by
  cases e <;> simp [raise]

@[simp] theorem raise_chan (e : ResultCode) (s : State) : (raise e s).chan = s.chan := (raise_frame e s).1
@[simp] theorem raise_free (e : ResultCode) (s : State) : (raise e s).free = s.free := (raise_frame e s).2.1
@[simp] theorem raise_script (e : ResultCode) (s : State) : (raise e s).host.script = s.host.script :=
  (raise_frame e s).2.2.1
@[simp] theorem raise_exchange (e : ResultCode) (s : State) : (raise e s).host.exchange = s.host.exchange :=
  (raise_frame e s).2.2.2.1

/-- What an error of the host raises leaves the block alone (R235). -/
theorem raise_blk_of_host {e : ResultCode} (h : 6 < e.code.toNat) (s : State) : (raise e s).blk = s.blk := by
  cases e <;> simp_all [raise, ResultCode.code]

/-! ### The channel and the time source -/

/-- A sample of the time source changes nothing but the samples to come. -/
theorem elapsed_frame (s : State) :
    (elapsed s).2.blk = s.blk ∧ (elapsed s).2.host = s.host ∧ (elapsed s).2.chan.pending = s.chan.pending
      ∧ (elapsed s).2.chan.answers = s.chan.answers ∧ (elapsed s).2.chan.writes = s.chan.writes
      ∧ (elapsed s).2.chan.suspect = s.chan.suspect ∧ (elapsed s).2.chan.sent = s.chan.sent
      ∧ (elapsed s).2.chan.clock = s.chan.clock.tail := by
  unfold elapsed
  cases h : s.chan.clock <;> simp [h]

@[simp] theorem elapsed_blk (s : State) : (elapsed s).2.blk = s.blk := (elapsed_frame s).1
@[simp] theorem elapsed_host (s : State) : (elapsed s).2.host = s.host := (elapsed_frame s).2.1

theorem elapsed_of_clock {s : State} {e : Nat} {rest : List Nat} (h : s.chan.clock = e :: rest) :
    elapsed s = (e, { s with chan.clock := rest }) := by simp [elapsed, h]

/-- Where no sample is scripted the time source keeps its law (R165). -/
theorem elapsed_of_no_clock {s : State} (h : s.chan.clock = []) : s.blk.rxLastE ≤ (elapsed s).1 := by
  simp [elapsed, h]

theorem drawRead_frame (s : State) :
    (drawRead s).2.blk = s.blk ∧ (drawRead s).2.host = s.host ∧ (drawRead s).2.chan.pending = s.chan.pending
      ∧ (drawRead s).2.chan.clock = s.chan.clock ∧ (drawRead s).2.chan.writes = s.chan.writes
      ∧ (drawRead s).2.chan.suspect = s.chan.suspect ∧ (drawRead s).2.chan.sent = s.chan.sent := by
  unfold drawRead
  cases h : s.chan.answers <;> simp

theorem drawRead_of_answers {s : State} {a : ReadDraw} {rest : List ReadDraw} (h : s.chan.answers = a :: rest) :
    drawRead s = (a, { s with chan.answers := rest }) := by simp [drawRead, h]

theorem settleStream_frame (s : State) :
    (settleStream s).blk = s.blk ∧ (settleStream s).host = s.host ∧ (settleStream s).chan.clock = s.chan.clock
      ∧ (settleStream s).chan.answers = s.chan.answers ∧ (settleStream s).chan.writes = s.chan.writes
      ∧ (settleStream s).chan.suspect = s.chan.suspect ∧ (settleStream s).chan.sent = s.chan.sent := by
  unfold settleStream
  cases h : s.chan.suspect <;> simp [h]

theorem settleStream_of_trusted {s : State} (h : s.chan.suspect = false) : settleStream s = s := by
  simp [settleStream, h]

theorem readStream_frame (d : ReadDraw) (s : State) :
    (readStream d s).2.blk = s.blk ∧ (readStream d s).2.host = s.host ∧ (readStream d s).2.chan.clock = s.chan.clock
      ∧ (readStream d s).2.chan.answers = s.chan.answers ∧ (readStream d s).2.chan.writes = s.chan.writes
      ∧ (readStream d s).2.chan.sent = s.chan.sent ∧ (readStream d s).2.free = s.free := by
  cases d with
  | error => simp [readStream]
  | noByte => simp [readStream]
  | next arrivals => cases h : s.chan.pending ++ arrivals <;> simp [readStream, h]

theorem readStream_ready {s : State} {arrivals : List Byte} {b : Byte} {rest : List Byte}
    (h : s.chan.pending ++ arrivals = b :: rest) :
    readStream (.next arrivals) s = (.byte b, { s with chan.pending := rest }) := by simp [readStream, h]

theorem readStream_empty {s : State} (h : s.chan.pending = []) : readStream (.next []) s = (.noByte, s) := by
  simp [readStream, h]

/-- What a read does to the stream: it takes the first byte of what is there, or takes nothing, or fails. -/
theorem readStream_stream (d : ReadDraw) (s : State) :
    (∃ b arrivals, (readStream d s).1 = .byte b ∧ s.chan.pending ++ arrivals = b :: (readStream d s).2.chan.pending
        ∧ (readStream d s).2.chan.suspect = s.chan.suspect)
      ∨ ((readStream d s).1 = .noByte ∧ (readStream d s).2 = s)
      ∨ ((readStream d s).1 = .error ∧ (readStream d s).2 = { s with chan.suspect := true }) := by
  cases d with
  | error => simp [readStream]
  | noByte => simp [readStream]
  | next arrivals =>
    cases h : s.chan.pending ++ arrivals with
    | nil => simp [readStream, h]
    | cons b rest => exact .inl ⟨b, arrivals, by simp [readStream, h]⟩

/-- A read touches neither the block nor the host, nor the outbound direction, nor the samples to come. -/
theorem chanRead_frame (s : State) :
    (chanRead s).2.blk = s.blk ∧ (chanRead s).2.host = s.host ∧ (chanRead s).2.chan.clock = s.chan.clock
      ∧ (chanRead s).2.chan.writes = s.chan.writes ∧ (chanRead s).2.chan.sent = s.chan.sent := by
  have h1 := drawRead_frame s
  have h2 := settleStream_frame (drawRead s).2
  have h3 := readStream_frame (drawRead s).1 (settleStream (drawRead s).2)
  simp [chanRead, h1, h2, h3]

@[simp] theorem chanRead_blk (s : State) : (chanRead s).2.blk = s.blk := (chanRead_frame s).1
@[simp] theorem chanRead_host (s : State) : (chanRead s).2.host = s.host := (chanRead_frame s).2.1

/-- On a channel that has reported no error a read takes the first byte of the pending input and what arrives
meanwhile, or takes nothing, or fails; nothing is lost or reordered. -/
theorem chanRead_stream {s : State} (h : s.chan.suspect = false) :
    (∃ b arrivals, (chanRead s).1 = .byte b ∧ s.chan.pending ++ arrivals = b :: (chanRead s).2.chan.pending
        ∧ (chanRead s).2.chan.suspect = false)
      ∨ ((chanRead s).1 = .noByte ∧ (chanRead s).2.chan.pending = s.chan.pending
        ∧ (chanRead s).2.chan.suspect = false)
      ∨ ((chanRead s).1 = .error ∧ (chanRead s).2.chan.pending = s.chan.pending
        ∧ (chanRead s).2.chan.suspect = true) := by
  have h1 := drawRead_frame s
  have ht : (drawRead s).2.chan.suspect = false := by simp [h1, h]
  have := readStream_stream (drawRead s).1 (drawRead s).2
  rw [ht, h1.2.2.1] at this
  simp only [chanRead, settleStream_of_trusted ht]
  rcases this with ⟨b, arr, hb, hp, hs⟩ | ⟨hb, hs⟩ | ⟨hb, hs⟩
  · exact .inl ⟨b, arr, hb, hp, hs⟩
  · exact .inr (.inl ⟨hb, by simp [hs, h1], by simp [hs, h1, h]⟩)
  · exact .inr (.inr ⟨hb, by simp [hs, h1], by rw [hs]⟩)

theorem drawWrite_frame (s : State) :
    (drawWrite s).2.blk = s.blk ∧ (drawWrite s).2.host = s.host ∧ (drawWrite s).2.chan.pending = s.chan.pending
      ∧ (drawWrite s).2.chan.clock = s.chan.clock ∧ (drawWrite s).2.chan.answers = s.chan.answers
      ∧ (drawWrite s).2.chan.suspect = s.chan.suspect ∧ (drawWrite s).2.chan.sent = s.chan.sent := by
  unfold drawWrite
  cases h : s.chan.writes <;> simp

/-- A write touches neither the block nor the host nor the inbound direction, and either hands over all the bytes
or fails after a prefix of them. -/
theorem chanWrite_spec (bytes : List Byte) (s : State) :
    (chanWrite bytes s).2.blk = s.blk ∧ (chanWrite bytes s).2.host = s.host
      ∧ (chanWrite bytes s).2.chan.pending = s.chan.pending ∧ (chanWrite bytes s).2.chan.clock = s.chan.clock
      ∧ (chanWrite bytes s).2.chan.answers = s.chan.answers
      ∧ (((chanWrite bytes s).1 = true ∧ (chanWrite bytes s).2.chan.sent = s.chan.sent ++ bytes
            ∧ (chanWrite bytes s).2.chan.suspect = s.chan.suspect)
        ∨ ((chanWrite bytes s).1 = false ∧ (chanWrite bytes s).2.chan.suspect = true
            ∧ ∃ n, (chanWrite bytes s).2.chan.sent = s.chan.sent ++ bytes.take n)) := by
  have h := drawWrite_frame s
  unfold chanWrite
  rcases hd : drawWrite s with ⟨d, t⟩
  rw [hd] at h
  cases d with
  | ok => exact ⟨h.1, h.2.1, h.2.2.1, h.2.2.2.1, h.2.2.2.2.1, .inl ⟨rfl, congrArg (· ++ bytes) h.2.2.2.2.2.2,
      h.2.2.2.2.2.1⟩⟩
  | error n => exact ⟨h.1, h.2.1, h.2.2.1, h.2.2.2.1, h.2.2.2.2.1, .inr ⟨rfl, rfl, n,
      congrArg (· ++ bytes.take n) h.2.2.2.2.2.2⟩⟩

@[simp] theorem chanWrite_blk (bytes : List Byte) (s : State) : (chanWrite bytes s).2.blk = s.blk :=
  (chanWrite_spec bytes s).1
@[simp] theorem chanWrite_host (bytes : List Byte) (s : State) : (chanWrite bytes s).2.host = s.host :=
  (chanWrite_spec bytes s).2.1

/-! ### Fetch -/

theorem latchOp_frame (c : Option (BitVec 2)) (s : State) :
    (latchOp c s).chan = s.chan ∧ (latchOp c s).host = s.host ∧ (latchOp c s).free = s.free
      ∧ (latchOp c s).blk = { s.blk with op := c.getD s.blk.op } := by
  cases c <;> simp [latchOp]

theorem issue_frame (i : Instr) (s : State) :
    (issue i s).chan = s.chan ∧ (issue i s).host = s.host ∧ (issue i s).free = s.free
      ∧ (issue i s).blk = { s.blk with op := (opCode i).getD s.blk.op } := latchOp_frame (opCode i) s

@[simp] theorem issue_chan (i : Instr) (s : State) : (issue i s).chan = s.chan := (issue_frame i s).1
@[simp] theorem issue_host (i : Instr) (s : State) : (issue i s).host = s.host := (issue_frame i s).2.1

end Sys2Proof.Machine
end

