-- ==== Sys2Proof/Laws/Primitives.lean ====
section
/-! SUPPORT. What the shared primitives give: the exact sum behind the 16-bit register, the checksum as a natural
number, the parts of an outbound frame, and what the encoder and the decoder accept. -/

namespace Sys2Proof.Machine

/-! ### Fields of fixed length -/

theorem list_of_length_three {c : List Byte} (h : c.length = 3) : ∃ x y z, c = [x, y, z] := by
  match c, h with
  | [x, y, z], _ => exact ⟨x, y, z, rfl⟩

theorem list_of_length_eight {d : List Byte} (h : d.length = 8) :
    ∃ a0 a1 a2 a3 a4 a5 a6 a7, d = [a0, a1, a2, a3, a4, a5, a6, a7] := by
  match d, h with
  | [a0, a1, a2, a3, a4, a5, a6, a7], _ => exact ⟨a0, a1, a2, a3, a4, a5, a6, a7, rfl⟩

/-- A slice of two bytes is the two bytes. -/
theorem slice_pair {s : List Byte} {i : Nat} (h : i + 2 ≤ s.length) :
    slice s i (i + 2) = [byteAt s i, byteAt s (i + 1)] := by
  have h1 : i < s.length := by omega
  have h2 : i + 1 < s.length := by omega
  simp only [slice, byteAt, List.getD_eq_getElem?_getD, List.getElem?_eq_getElem h1, List.getElem?_eq_getElem h2,
    Option.getD_some, show i + 2 - i = 2 by omega]
  rw [List.drop_eq_getElem_cons h1, List.drop_eq_getElem_cons h2]
  rfl

/-! ### The sum and the checksum -/

theorem sumRegister_foldl (s : List Byte) (a : BitVec 16) :
    s.foldl (fun acc b => acc + b.setWidth 16) a = a + BitVec.ofNat 16 (s.map BitVec.toNat).sum := by
  induction s generalizing a with
  | nil => simp
  | cons b s ih =>
    rw [List.foldl_cons, ih, List.map_cons, List.sum_cons]
    apply BitVec.eq_of_toNat_eq
    have := b.isLt
    simp [BitVec.toNat_add]
    omega

/-- The register holds the exact sum modulo 2 to the 16. -/
theorem sumRegister_toNat (s : List Byte) : (sumRegister s).toNat = regionSum s % 65536 := by
  simp [sumRegister, sumRegister_foldl, regionSum]

theorem regionSum_le (s : List Byte) : regionSum s ≤ 255 * s.length := by
  induction s with
  | nil => simp [regionSum]
  | cons b s ih => have := b.isLt; simp [regionSum] at *; omega

theorem regionSum_perm {s s' : List Byte} (h : s.Perm s') : regionSum s = regionSum s' := (h.map _).sum_eq

theorem regionSum_replicate (n : Nat) (b : Byte) : regionSum (List.replicate n b) = n * b.toNat := by
  simp [regionSum]

theorem sumHi_eq (n : Nat) : sumHi n = n / 256 % 256 := by
  rw [sumHi, Nat.shiftRight_eq_div_pow]
  exact Nat.and_two_pow_sub_one_eq_mod _ 8

theorem sumLo_eq (n : Nat) : sumLo n = n % 256 := Nat.and_two_pow_sub_one_eq_mod _ 8

theorem sumHi_lt (n : Nat) : sumHi n < 256 := by rw [sumHi_eq]; omega

theorem sumLo_lt (n : Nat) : sumLo n < 256 := by rw [sumLo_eq]; omega

/-- The bits of a sum above bit 15 do not reach the checksum (R112). -/
theorem rawChecksum_mod (n : Nat) : rawChecksum (n % 65536) = rawChecksum n := by
  simp only [rawChecksum, sumHi_eq, sumLo_eq]
  omega

/-- The checksum byte, from the exact sum. -/
theorem checksum_eq (s : List Byte) : checksum s = BitVec.ofNat 8 (rawChecksum (regionSum s) % 256).toNat := by
  rw [checksum, sumRegister_toNat, rawChecksum_mod]
  rfl

theorem checksum_toNat_eq (s : List Byte) : ((checksum s).toNat : Int) = rawChecksum (regionSum s) % 256 := by
  rw [checksum_eq, BitVec.toNat_ofNat]
  omega

/-! ### Digits and payload characters -/

@[simp] theorem hex2_length (c : Byte) : (hex2 c).length = 2 := rfl

theorem hexChar_ne (n : BitVec 4) : hexChar n ≠ delim ∧ hexChar n ≠ sep := by
  revert n
  decide

theorem hexChar_injective : ∀ m n : BitVec 4, hexChar m = hexChar n → m = n := by decide

theorem isPayloadChar_ne_delim {x : Byte} (h : isPayloadChar x = true) : x ≠ delim := by
  rintro rfl
  revert h
  decide

/-! ### The parts of an outbound frame -/

theorem outRegion_length (b c d : List Byte) : (outRegion b c d).length = b.length + c.length + d.length + 3 := by
  simp [outRegion]
  omega

theorem outFrame_length (b c d : List Byte) : (outFrame b c d).length = b.length + c.length + d.length + 6 := by
  simp [outFrame, outRegion_length, checksumDigits]

theorem outFrame_region {b c d : List Byte} (h : b.length + c.length + d.length = 12) :
    slice (outFrame b c d) 0 15 = outRegion b c d := by
  have hr : (outRegion b c d).length = 15 := by rw [outRegion_length]; omega
  simp [outFrame, slice, List.append_assoc, ← hr]

theorem outFrame_digits {b c d : List Byte} (h : b.length + c.length + d.length = 12) :
    slice (outFrame b c d) 15 17 = checksumDigits (outRegion b c d) := by
  have hr : (outRegion b c d).length = 15 := by rw [outRegion_length]; omega
  rw [outFrame, slice, List.append_assoc, ← hr, List.drop_left, hr]
  rfl

/-! ### What the encoder accepts -/

theorem encodeFrame_badLength {b c d : List Byte} (h : ¬ (b.length = 1 ∧ c.length = 3 ∧ d.length = 8)) :
    encodeFrame b c d = .error .invalidLength := by
  rw [encodeFrame, if_pos]
  simp only [bidLen, cmdLen, datLen]
  omega

theorem encodeFrame_badChar {b c d : List Byte} (h : b.length = 1 ∧ c.length = 3 ∧ d.length = 8)
    (hx : ∃ x ∈ b ++ c ++ d, isPayloadChar x = false) : encodeFrame b c d = .error .invalidCharacter := by
  rw [encodeFrame, if_neg (by simp [bidLen, cmdLen, datLen, h]), if_neg]
  rw [List.all_eq_true]
  obtain ⟨x, hm, hp⟩ := hx
  exact fun hall => by simp [hall x hm] at hp

theorem encodeFrame_good {b c d : List Byte} (h : b.length = 1 ∧ c.length = 3 ∧ d.length = 8)
    (hp : ∀ x ∈ b ++ c ++ d, isPayloadChar x = true) : encodeFrame b c d = .ok (outFrame b c d) := by
  rw [encodeFrame, if_neg (by simp [bidLen, cmdLen, datLen, h]), if_pos (List.all_eq_true.2 hp)]

/-- The encoder answers with a frame exactly on three operands of the right lengths and characters. -/
theorem encodeFrame_ok {b c d f : List Byte} :
    encodeFrame b c d = .ok f ↔ (b.length = 1 ∧ c.length = 3 ∧ d.length = 8)
      ∧ (∀ x ∈ b ++ c ++ d, isPayloadChar x = true) ∧ f = outFrame b c d := by
  by_cases h : b.length = 1 ∧ c.length = 3 ∧ d.length = 8
  · by_cases hp : ∀ x ∈ b ++ c ++ d, isPayloadChar x = true
    · rw [encodeFrame_good h hp]
      exact ⟨fun e => ⟨h, hp, (Except.ok.inj e).symm⟩, fun e => by rw [e.2.2]⟩
    · rw [encodeFrame_badChar h (by simpa using hp)]
      exact ⟨fun e => (by cases e), fun e => absurd e.2.1 hp⟩
  · rw [encodeFrame_badLength h]
    exact ⟨fun e => (by cases e), fun e => absurd e.1 h⟩

/-- The encoder has two errors and no other (R130). -/
theorem encodeFrame_error {b c d : List Byte} {e : ResultCode} (h : encodeFrame b c d = .error e) :
    e = .invalidLength ∨ e = .invalidCharacter := by
  unfold encodeFrame at h
  split at h
  · cases h; exact .inl rfl
  · split at h
    · cases h
    · cases h; exact .inr rfl

/-! ### What the decoder accepts -/

theorem decodeResponse_badLength {raw : List Byte} (h : raw.length ≠ 20) :
    decodeResponse raw = .error .lengthMismatch := by
  rw [decodeResponse, decodeRaw, if_pos (by simpa [inLen] using h)]

theorem decodeResponse_badDigits {raw : List Byte} (h : raw.length = 20)
    (hd : [byteAt raw 17, byteAt raw 18] ≠ hex2 (checksum (slice raw 0 17))) :
    decodeResponse raw = .error .checksumMismatch := by
  rw [decodeResponse, decodeRaw, if_neg (by simpa [inLen] using h),
    if_neg (by simpa [digitsMatch, Config.hexLowerOk, checksumDigits, decRegion] using hd)]

theorem decodeResponse_good {raw : List Byte} (h : raw.length = 20)
    (hd : [byteAt raw 17, byteAt raw 18] = hex2 (checksum (slice raw 0 17))) :
    decodeResponse raw = .ok ⟨byteAt raw 0, slice raw 2 5, slice raw 6 14, byteAt raw 15⟩ := by
  rw [decodeResponse, decodeRaw, if_neg (by simpa [inLen] using h),
    if_pos (by simpa [digitsMatch, Config.hexLowerOk, checksumDigits, decRegion] using hd)]

/-- The decoder answers with a response exactly on 20 bytes with the right digits, and with their fields. -/
theorem decodeResponse_ok {raw : List Byte} {r : Response} :
    decodeResponse raw = .ok r ↔ raw.length = 20 ∧ [byteAt raw 17, byteAt raw 18] = hex2 (checksum (slice raw 0 17))
      ∧ r = ⟨byteAt raw 0, slice raw 2 5, slice raw 6 14, byteAt raw 15⟩ := by
  by_cases h : raw.length = 20
  · by_cases hd : [byteAt raw 17, byteAt raw 18] = hex2 (checksum (slice raw 0 17))
    · rw [decodeResponse_good h hd]
      exact ⟨fun e => ⟨h, hd, (Except.ok.inj e).symm⟩, fun e => by rw [e.2.2]⟩
    · rw [decodeResponse_badDigits h hd]
      exact ⟨fun e => (by cases e), fun e => absurd e.2.1 hd⟩
  · rw [decodeResponse_badLength h]
    exact ⟨fun e => (by cases e), fun e => absurd e.1 h⟩

/-- The decoder has two errors and no other (R190). -/
theorem decodeResponse_error {raw : List Byte} {e : ResultCode} (h : decodeResponse raw = .error e) :
    e = .lengthMismatch ∨ e = .checksumMismatch := by
  unfold decodeResponse decodeRaw at h
  split at h
  · cases h; exact .inl rfl
  · split at h
    · cases h
    · cases h; exact .inr rfl

/-- The fields of a response have the lengths of the packed space (R60). -/
theorem decodeResponse_lengths {raw : List Byte} {r : Response} (h : decodeResponse raw = .ok r) :
    r.cmd.length = 3 ∧ r.dat.length = 8 := by
  obtain ⟨hl, -, rfl⟩ := decodeResponse_ok.1 h
  simp [slice, hl]

end Sys2Proof.Machine
end

