-- ==== Sys2Proof/Laws/Meanings.lean ====
section
/-! SUPPORT. One lemma per meaning that says when it answers a next state and what that state can be; the provers cite
it instead of unfolding the meaning. -/

namespace Sys2Proof.Machine

/-! ### ENC, DEC -/

/-- What `ENC` does: it installs the frame, or drops the frame under one of its two errors. -/
theorem enc_cases (s : State) :
    (∃ f, encodeFrame s.blk.aBid s.blk.aCmd s.blk.aDat = .ok f ∧ enc s = s.mapBlock (Block.installFrame f))
    ∨ ∃ e, (e = .invalidLength ∨ e = .invalidCharacter)
        ∧ encodeFrame s.blk.aBid s.blk.aCmd s.blk.aDat = .error e ∧ enc s = s.mapBlock (Block.dropFrame e) := by
  unfold enc
  cases he : encodeFrame s.blk.aBid s.blk.aCmd s.blk.aDat with
  | ok f => exact .inl ⟨f, rfl, rfl⟩
  | error e =>
    refine .inr ⟨e, encodeFrame_error he, rfl, ?_⟩
    rcases encodeFrame_error he with rfl | rfl <;> rfl

theorem exec_enc_next {s t : State} :
    exec .enc s = .next t ↔ s.blk.busy = false ∧ s.host.exchange = none ∧ t = enc s := by
  simp only [exec, execEnc, whenFree_next, Host.Outcome.next.injEq]
  tauto

/-- What `DEC` does: it installs the response, or drops it under one of its two errors. -/
theorem dec_cases (s : State) :
    (∃ r, decodeResponse s.blk.rxBuf = .ok r ∧ dec s = s.mapBlock (Block.installResponse r))
    ∨ ∃ e, (e = .lengthMismatch ∨ e = .checksumMismatch)
        ∧ decodeResponse s.blk.rxBuf = .error e ∧ dec s = s.mapBlock (Block.dropResponse e) := by
  unfold dec
  cases he : decodeResponse s.blk.rxBuf with
  | ok r => exact .inl ⟨r, rfl, rfl⟩
  | error e =>
    refine .inr ⟨e, decodeResponse_error he, rfl, ?_⟩
    rcases decodeResponse_error he with rfl | rfl <;> rfl

theorem exec_dec_next {s t : State} :
    exec .dec s = .next t
      ↔ s.blk.busy = false ∧ s.host.exchange = none ∧ s.blk.rxState = .complete ∧ t = dec s := by
  simp only [exec, execDec, whenFree_next, whenComplete_next, Host.Outcome.next.injEq]
  tauto

/-! ### RCV -/

theorem exec_rcv_next {s t : State} :
    exec .rcv s = .next t ↔ s.blk.busy = false ∧ s.host.exchange = none ∧ t = startReceive s := by
  simp only [exec, execRcv, whenFree_next, Host.Outcome.next.injEq]
  tauto

/-- What an iteration does with its sample: it ends in `TimedOut` without touching the channel, or makes one read. -/
theorem iterateAt_timeout {s : State} {e : Nat} (h : s.blk.rxTmo ≤ e) :
    iterateAt e s = s.mapBlock fun b => Block.endReceive .timedOut .timeoutError (Block.sampleTime e b) := by
  unfold iterateAt
  exact if_pos h

theorem iterateAt_read {s : State} {e : Nat} (h : e < s.blk.rxTmo) :
    iterateAt e s = afterRead (chanRead (s.mapBlock (Block.sampleTime e))).1
      (chanRead (s.mapBlock (Block.sampleTime e))).2 := by
  unfold iterateAt
  exact if_neg (Nat.not_le.2 h)

/-- What the block looks like after a read outcome, and that nothing but the block changes with it. -/
theorem afterRead_cases (r : ReadOutcome) (s : State) :
    ∃ b, afterRead r s = { s with blk := b }
      ∧ ((r = .error ∧ b = Block.endReceive .failed .transportRead s.blk)
        ∨ (r = .noByte ∧ b = s.blk)
        ∨ (r = .byte delim ∧ b = Block.endReceive .complete .ok (Block.appendByte delim s.blk))
        ∨ ∃ x, x ≠ delim ∧ r = .byte x ∧ b = Block.appendByte x s.blk) := by
  cases r with
  | error => exact ⟨_, rfl, .inl ⟨rfl, rfl⟩⟩
  | noByte => exact ⟨_, rfl, .inr (.inl ⟨rfl, rfl⟩)⟩
  | byte x =>
    by_cases h : x = delim
    · subst h
      exact ⟨_, by simp only [afterRead, receiveByte, if_true]; rfl, .inr (.inr (.inl ⟨rfl, rfl⟩))⟩
    · exact ⟨_, by simp only [afterRead, receiveByte, if_neg h]; rfl, .inr (.inr (.inr ⟨x, h, rfl, rfl⟩))⟩

/-- What one iteration does, whatever the sample and the channel's answer are. -/
theorem iterateAt_cases (e : Nat) (s : State) :
    (s.blk.rxTmo ≤ e ∧ iterateAt e s
        = { s with blk := Block.endReceive .timedOut .timeoutError (Block.sampleTime e s.blk) })
    ∨ (e < s.blk.rxTmo ∧ ∃ b, iterateAt e s = { (chanRead (s.mapBlock (Block.sampleTime e))).2 with blk := b }
        ∧ (((chanRead (s.mapBlock (Block.sampleTime e))).1 = .error
              ∧ b = Block.endReceive .failed .transportRead (Block.sampleTime e s.blk))
          ∨ ((chanRead (s.mapBlock (Block.sampleTime e))).1 = .noByte ∧ b = Block.sampleTime e s.blk)
          ∨ ((chanRead (s.mapBlock (Block.sampleTime e))).1 = .byte delim
              ∧ b = Block.endReceive .complete .ok (Block.appendByte delim (Block.sampleTime e s.blk)))
          ∨ ∃ x, x ≠ delim ∧ (chanRead (s.mapBlock (Block.sampleTime e))).1 = .byte x
              ∧ b = Block.appendByte x (Block.sampleTime e s.blk))) := by
  rcases Nat.lt_or_ge e s.blk.rxTmo with h | h
  · refine .inr ⟨h, ?_⟩
    rw [iterateAt_read h]
    have := afterRead_cases (chanRead (s.mapBlock (Block.sampleTime e))).1
      (chanRead (s.mapBlock (Block.sampleTime e))).2
    simpa only [chanRead_blk, State.mapBlock_blk] using this
  · exact .inl ⟨h, iterateAt_timeout h⟩

theorem iterate_next {s t : State} :
    iterate s = .next t ↔ s.blk.rxLastE ≤ (elapsed s).1 ∧ t = iterateAt (elapsed s).1 (elapsed s).2 := by
  unfold iterate
  split
  · simp only [reduceCtorEq, false_iff]; omega
  · simp only [Host.Outcome.next.injEq]; constructor
    · rintro rfl; exact ⟨by omega, rfl⟩
    · rintro ⟨-, rfl⟩; rfl

theorem iterate_of_clock {s : State} {e : Nat} {es : List Nat} (h : s.chan.clock = e :: es)
    (hl : s.blk.rxLastE ≤ e) : iterate s = .next (iterateAt e { s with chan.clock := es }) :=
  iterate_next.2 ⟨by simpa [elapsed_of_clock h] using hl, by simp only [elapsed_of_clock h]⟩

/-! ### Reads whose outcome is scripted -/

/-- A read whose answer is scripted: on the pending input as it stands, or, where the channel has reported an error, on a
free value. -/
theorem chanRead_scripted {s : State} {d : ReadDraw} {ds : List ReadDraw} (ha : s.chan.answers = d :: ds) :
    chanRead s = readStream d { s with
      chan := { s.chan with
        answers := ds, pending := if s.chan.suspect then Config.freePending s.free else s.chan.pending }
      free := if s.chan.suspect then s.free + 1 else s.free } := by
  rw [chanRead, drawRead_of_answers ha]
  cases h : s.chan.suspect <;> simp [settleStream, h]

theorem chanRead_ready {s : State} {arrivals : List Byte} {ds : List ReadDraw} {b : Byte} {rest : List Byte}
    (ha : s.chan.answers = .next arrivals :: ds) (hsu : s.chan.suspect = false)
    (hp : s.chan.pending ++ arrivals = b :: rest) :
    chanRead s = (.byte b, { s with chan := { s.chan with answers := ds, pending := rest } }) := by
  simp [chanRead_scripted ha, readStream, hsu, hp]

theorem chanRead_silent {s : State} {ds : List ReadDraw} (ha : s.chan.answers = .noByte :: ds)
    (hsu : s.chan.suspect = false) :
    chanRead s = (.noByte, { s with chan := { s.chan with answers := ds } }) := by
  simp [chanRead_scripted ha, readStream, hsu]

theorem chanRead_failed {s : State} {ds : List ReadDraw} (ha : s.chan.answers = .error :: ds) :
    (chanRead s).1 = .error ∧ (chanRead s).2.chan.suspect = true ∧ (chanRead s).2.chan.answers = ds := by
  rw [chanRead, drawRead_of_answers ha]
  refine ⟨rfl, rfl, ?_⟩
  rw [(readStream_frame _ _).2.2.2.1, (settleStream_frame _).2.2.2.1]

/-! ### Writes, SEND and the wire formats -/

theorem chanWrite_ok {s : State} {ws : List WriteDraw} (bytes : List Byte) (h : s.chan.writes = .ok :: ws) :
    chanWrite bytes s = (true, { s with chan := { s.chan with writes := ws, sent := s.chan.sent ++ bytes } }) := by
  simp [chanWrite, drawWrite, h]

theorem chanWrite_error {s : State} {n : Nat} {ws : List WriteDraw} (bytes : List Byte)
    (h : s.chan.writes = .error n :: ws) : (chanWrite bytes s).1 = false := by
  simp [chanWrite, drawWrite, h]

/-- What a transmission does: the block is as before, of the host only the result changes, and either all the bytes
went out or the write failed after a prefix of them. -/
theorem transmit_spec (f : List Byte) (s : State) :
    (transmit f s).blk = s.blk ∧ (transmit f s).chan.pending = s.chan.pending
      ∧ (transmit f s).chan.answers = s.chan.answers ∧ (transmit f s).chan.clock = s.chan.clock
      ∧ (transmit f s).host = { s.host with result := (transmit f s).host.result }
      ∧ (((transmit f s).host.result = some .ok ∧ (transmit f s).chan.sent = s.chan.sent ++ f
            ∧ (transmit f s).chan.suspect = s.chan.suspect)
        ∨ ((transmit f s).host.result = some .transportWrite
            ∧ (∃ n, (transmit f s).chan.sent = s.chan.sent ++ f.take n) ∧ (transmit f s).chan.suspect = true))
      ∧ ((transmit f s).host.result = some (if (chanWrite f s).1 then .ok else .transportWrite)) := by
  have h := chanWrite_spec f s
  unfold transmit
  rcases hc : chanWrite f s with ⟨b, t⟩
  rw [hc] at h
  cases b with
  | true => simp_all [HostSide.returns]
  | false => simp_all [HostSide.returns, raise]

theorem exec_send_next {s t : State} :
    exec .send s = .next t ↔ s.blk.busy = false ∧ s.host.exchange = none
      ∧ ∃ f, memRead .txbuf 0 outLen s.blk = some f ∧ t = transmit f s := by
  simp only [exec, execSend, whenFree_next, withFrame_next, Host.Outcome.next.injEq]
  tauto

theorem exec_out18_next {s t : State} {b h l : Byte} {c d : List Byte} :
    exec (.out18 b c d h l) s = .next t ↔ s.blk.busy = false ∧ s.host.exchange = none
      ∧ t = transmit ([b, sep] ++ c ++ [sep] ++ d ++ [sep, h, l, delim]) s := by
  simp only [exec, execOut18, whenFree_next, Host.Outcome.next.injEq, frameBytes, encode, Option.getD_some]
  tauto

theorem exec_in20_next {s t : State} {b s1 s2 s3 k s4 h l : Byte} {c d : List Byte} :
    exec (.in20 b s1 c s2 d s3 k s4 h l) s = .next t
      ↔ t = peerSends ([b, s1] ++ c ++ [s2] ++ d ++ [s3, k, s4, h, l, delim]) s := by
  simp only [exec, execIn20, Host.Outcome.next.injEq, frameBytes, encode, Option.getD_some]
  tauto

/-! ### EXEC -/

theorem exec_exec_next {s t : State} {bid cmd dat echo : List Byte} {ed : Option (List Byte)} :
    exec (.exec bid cmd dat echo ed) s = .next t ↔ s.blk.busy = false ∧ s.host.exchange = none
      ∧ t = startExchange bid cmd dat echo ed s := by
  simp only [exec, execExec, whenFree_next, Host.Outcome.next.injEq]
  tauto

theorem exec_reserved (s : State) : exec .reserved s = .refused .reservedOp := rfl

/-- What one phase of an exchange can do to the machine. -/
theorem exchangeTurn_next {x : Exchange} {s t : State} (h : exchangeTurn x s = .next t) :
    (x.phase = .encode ∧ t = onStatus .send x (enc (issue .enc s)))
    ∨ (x.phase = .send ∧ ∃ f, memRead .txbuf 0 outLen s.blk = some f ∧ t = sendPhase x f s)
    ∨ (x.phase = .receive ∧ t = advance .await x (startReceive (issue .rcv (setTimeout Config.rxTimeout s))))
    ∨ (x.phase = .await ∧ t = onStatus .decode x s)
    ∨ (x.phase = .decode ∧ s.blk.rxState = .complete ∧ t = onStatus .validate x (dec (issue .dec s)))
    ∨ (x.phase = .validate ∧ ∃ r, s.blk.response? = some r ∧ t = conclude x r s) := by
  unfold exchangeTurn at h
  cases hp : x.phase <;> simp only [hp, withFrame_next, whenComplete_next, withResponse_next,
    Host.Outcome.next.injEq] at h <;> simp_all [eq_comm]

/-- The end of a phase that goes by `STATUS`: the block is as it was. -/
theorem onStatus_cases (p : Phase) (x : Exchange) (s : State) :
    (s.blk.status = .ok ∧ onStatus p x s = advance p x s)
    ∨ (s.blk.status ≠ .ok ∧ onStatus p x s = endExchange s.blk.status s) := by
  unfold onStatus
  by_cases h : s.blk.status = .ok <;> simp [h]

@[simp] theorem onStatus_blk (p : Phase) (x : Exchange) (s : State) : (onStatus p x s).blk = s.blk := by
  rcases onStatus_cases p x s with ⟨-, h⟩ | ⟨-, h⟩ <;> simp [h]

@[simp] theorem onStatus_chan (p : Phase) (x : Exchange) (s : State) : (onStatus p x s).chan = s.chan := by
  rcases onStatus_cases p x s with ⟨-, h⟩ | ⟨-, h⟩ <;> simp [h]

/-- The write of an exchange: the block is as it was, and the exchange goes on or is over. -/
theorem sendPhase_cases (x : Exchange) (f : List Byte) (s : State) :
    (sendPhase x f s).blk = s.blk ∧ (sendPhase x f s).chan = (chanWrite f s).2.chan
      ∧ ((sendPhase x f s).host.exchange = some { x with phase := .receive }
        ∨ (sendPhase x f s).host.exchange = none) := by
  have h := chanWrite_blk f s
  unfold sendPhase
  rcases hc : chanWrite f s with ⟨b, t⟩
  rw [hc] at h
  cases b
  · exact ⟨h, rfl, .inr rfl⟩
  · exact ⟨h, rfl, .inl rfl⟩

/-- A check succeeds or gives one of the host's errors (R91). -/
theorem checkResult_host (c : Check) (boardId : List Byte) (r : Response) :
    checkResult c boardId r = .ok ∨ 6 < (checkResult c boardId r).code.toNat := by
  cases c <;> simp only [checkResult] <;> split <;> simp [ResultCode.code]

/-- Checks before the first that fails are passed over. -/
theorem checkAll_append {pre : List Check} {boardId : List Byte} {r : Response}
    (h : ∀ c ∈ pre, checkResult c boardId r = .ok) (post : List Check) :
    checkAll (pre ++ post) boardId r = checkAll post boardId r := by
  induction pre with
  | nil => rfl
  | cons c pre ih =>
    rw [List.forall_mem_cons] at h
    rw [List.cons_append, checkAll, h.1]
    exact ih h.2

/-- The first check that fails is the result. -/
theorem checkAll_cons_of_fails {c : Check} {boardId : List Byte} {r : Response}
    (h : checkResult c boardId r ≠ .ok) (post : List Check) :
    checkAll (c :: post) boardId r = checkResult c boardId r := by
  rw [checkAll]
  split
  · exact absurd ‹_› h
  · rfl

/-- All checks pass, or one fails and those before it pass. -/
theorem checkAll_cases (cs : List Check) (boardId : List Byte) (r : Response) :
    ((∀ c ∈ cs, checkResult c boardId r = .ok) ∧ checkAll cs boardId r = .ok)
    ∨ ∃ pre c post, cs = pre ++ c :: post ∧ (∀ k ∈ pre, checkResult k boardId r = .ok)
        ∧ checkResult c boardId r ≠ .ok ∧ checkAll cs boardId r = checkResult c boardId r := by
  induction cs with
  | nil => exact .inl ⟨by simp, rfl⟩
  | cons c cs ih =>
    by_cases hc : checkResult c boardId r = .ok
    · have hall : checkAll (c :: cs) boardId r = checkAll cs boardId r := by rw [checkAll, hc]
      rcases ih with ⟨h, hr⟩ | ⟨pre, k, post, rfl, hp, hk, hr⟩
      · exact .inl ⟨List.forall_mem_cons.2 ⟨hc, h⟩, hall.trans hr⟩
      · exact .inr ⟨c :: pre, k, post, rfl, List.forall_mem_cons.2 ⟨hc, hp⟩, hk, hall.trans hr⟩
    · exact .inr ⟨[], c, cs, rfl, by simp, hc, checkAll_cons_of_fails hc cs⟩

/-- The result of checks is `Ok` or one of the host's errors (R91). -/
theorem checkAll_host (cs : List Check) (boardId : List Byte) (r : Response) :
    checkAll cs boardId r = .ok ∨ 6 < (checkAll cs boardId r).code.toNat := by
  rcases checkAll_cases cs boardId r with ⟨-, h⟩ | ⟨_, c, _, -, -, -, h⟩ <;> rw [h]
  · exact .inl rfl
  · exact checkResult_host c boardId r

/-- The checks of an exchange one by one, in the order of R213 to R218. -/
theorem validate_eq (boardId echo : List Byte) (echoData : Option (List Byte)) (r : Response) :
    validate boardId echo echoData r
      = if boardMatches boardId r = false then .boardMismatch
        else if codeAccepted r = false then .deviceRejected r.code
        else if echoMatches echo r = false then .commandMismatch
        else if echoData.any (fun d => !dataMatches d r) then .echoMismatch
        else .ok := by
  cases hb : boardMatches boardId r <;> cases hk : codeAccepted r <;> cases he : echoMatches echo r <;>
    cases echoData <;> simp [validate, exchangeChecks, checkAll, checkResult, hb, hk, he]
  split <;> simp_all

/-- The checks end the exchange and leave the block and the channel alone (R235). -/
theorem conclude_frame (x : Exchange) (r : Response) (s : State) :
    (conclude x r s).blk = s.blk ∧ (conclude x r s).chan = s.chan ∧ (conclude x r s).host.exchange = none := by
  unfold conclude
  split
  · exact ⟨rfl, rfl, rfl⟩
  · rename_i hne
    rcases checkAll_host (exchangeChecks x.expectedCommandEcho x.expectedEchoData) x.boardId r with h | h
    · exact absurd h hne
    · exact ⟨raise_blk_of_host h s, by simp, rfl⟩

end Sys2Proof.Machine
end

