-- ==== Sys2Proof/Laws/Memory.lean ====
section
/-! SUPPORT. The buffer spaces: reading after writing, and that every operation that writes one keeps `Memory.wf`. -/

namespace Sys2Proof.Machine

/-! ### Reading -/

/-- A wider read is made of the byte reads (R60, R65). -/
theorem memRead_getElem {sp : Space} {i n k : Nat} {b : Block} {bytes : List Byte}
    (h : memRead sp i n b = some bytes) (hk : k < n) : readByte sp (i + k) b = bytes[k]? := by
  unfold memRead at h
  unfold readByte
  cases hs : spaceBytes sp b with
  | none => simp [hs] at h
  | some all =>
    simp only [hs, Option.bind_some] at h ⊢
    split at h
    · cases h
      simp [slice, hk]
    · cases h

/-- `TXBUF` reads as the frame just installed. -/
theorem readByte_installFrame (f : List Byte) (i : Nat) (b : Block) :
    readByte .txbuf i (b.installFrame f) = f[i]? := rfl

/-- `TXBUF` reads as nothing once the frame is dropped. -/
theorem readByte_dropFrame (e : ResultCode) (i : Nat) (b : Block) :
    readByte .txbuf i (b.dropFrame e) = none := rfl

/-- `RSP` reads as the response just installed, packed. -/
theorem readByte_installResponse (r : Response) (i : Nat) (b : Block) :
    readByte .rsp i (b.installResponse r) = r.packed[i]? := rfl

/-- `RSP` reads as nothing once the response is dropped. -/
theorem readByte_dropResponse (e : ResultCode) (i : Nat) (b : Block) :
    readByte .rsp i (b.dropResponse e) = none := rfl

/-- A write of `TXBUF` leaves every other space alone. -/
theorem readByte_installFrame_other {sp : Space} (h : sp ≠ .txbuf) (f : List Byte) (i : Nat) (b : Block) :
    readByte sp i (b.installFrame f) = readByte sp i b := by
  cases sp <;> first | rfl | contradiction

/-- A write of `RSP` leaves every other space alone. -/
theorem readByte_installResponse_other {sp : Space} (h : sp ≠ .rsp) (r : Response) (i : Nat) (b : Block) :
    readByte sp i (b.installResponse r) = readByte sp i b := by
  cases sp <;> first | rfl | contradiction

/-- An appended byte stands at the old length of `RX_BUF`. -/
theorem readByte_appendByte_self (x : Byte) (b : Block) :
    readByte .rxbuf b.rxBuf.length (b.appendByte x) = some x := by
  simp [readByte, spaceBytes, Block.appendByte]

/-- An append leaves every other byte alone: those before it, and those of every other space. -/
theorem readByte_appendByte_other {sp : Space} {i : Nat} {b : Block} (h : sp ≠ .rxbuf ∨ i < b.rxBuf.length)
    (x : Byte) : readByte sp i (b.appendByte x) = readByte sp i b := by
  cases sp with
  | rxbuf =>
    have hi : i < b.rxBuf.length := by simpa using h
    simp [readByte, spaceBytes, Block.appendByte, List.getElem?_append_left hi]
  | _ => rfl

/-! ### The form -/

theorem Memory.wf_iff {b : Block} :
    Memory.wf b = true ↔ (∀ f, b.txbuf = some f → f.length = 18)
      ∧ ∀ r, b.resp = some r → r.cmd.length = 3 ∧ r.dat.length = 8 := by
  unfold Memory.wf
  cases b.txbuf <;> cases b.resp <;> simp [outLen, cmdLen, datLen]

/-- What keeps both buffers of fixed size keeps the form. -/
theorem Memory.wf_congr {b c : Block} (ht : c.txbuf = b.txbuf) (hr : c.resp = b.resp) :
    Memory.wf c = Memory.wf b := by unfold Memory.wf; rw [ht, hr]

theorem Memory.wf_installFrame {b : Block} (h : Memory.wf b = true) {f : List Byte} (hf : f.length = 18) :
    Memory.wf (b.installFrame f) = true := by
  rw [Memory.wf_iff] at *
  exact ⟨by simpa using hf, h.2⟩

theorem Memory.wf_dropFrame {b : Block} (h : Memory.wf b = true) (e : ResultCode) :
    Memory.wf (b.dropFrame e) = true := by
  rw [Memory.wf_iff] at *
  exact ⟨by simp, h.2⟩

theorem Memory.wf_installResponse {b : Block} (h : Memory.wf b = true) {r : Response}
    (hr : r.cmd.length = 3 ∧ r.dat.length = 8) : Memory.wf (b.installResponse r) = true := by
  rw [Memory.wf_iff] at *
  exact ⟨h.1, by rintro r' ⟨⟩; exact hr⟩

theorem Memory.wf_dropResponse {b : Block} (h : Memory.wf b = true) (e : ResultCode) :
    Memory.wf (b.dropResponse e) = true := by
  rw [Memory.wf_iff] at *
  exact ⟨h.1, by simp⟩

theorem Memory.wf_startReceive {b : Block} (h : Memory.wf b = true) : Memory.wf b.startReceive = true := by
  rw [Memory.wf_iff] at *
  exact ⟨h.1, by simp⟩

theorem Memory.wf_appendByte {b : Block} (h : Memory.wf b = true) (x : Byte) :
    Memory.wf (b.appendByte x) = true := h

theorem Memory.wf_reset (n : Nat) : Memory.wf (Block.reset n) = true := rfl

/-- The machine right after reset has the form. -/
theorem Memory.wf_state_reset : Memory.wf State.reset.blk = true := rfl

/-! ### The operations that write a space keep the form -/

theorem Memory.wf_enc {s : State} (h : Memory.wf s.blk = true) : Memory.wf (enc s).blk = true := by
  rcases enc_cases s with ⟨f, hf, he⟩ | ⟨e, -, -, he⟩ <;> rw [he]
  · obtain ⟨hl, -, rfl⟩ := encodeFrame_ok.1 hf
    exact Memory.wf_installFrame h (by rw [outFrame_length]; omega)
  · exact Memory.wf_dropFrame h e

theorem Memory.wf_dec {s : State} (h : Memory.wf s.blk = true) : Memory.wf (dec s).blk = true := by
  rcases dec_cases s with ⟨r, hr, he⟩ | ⟨e, -, -, he⟩ <;> rw [he]
  · exact Memory.wf_installResponse h (decodeResponse_lengths hr)
  · exact Memory.wf_dropResponse h e

theorem Memory.wf_iterateAt {s : State} (h : Memory.wf s.blk = true) (e : Nat) :
    Memory.wf (iterateAt e s).blk = true := by
  rcases iterateAt_cases e s with ⟨-, he⟩ | ⟨-, b, he, ⟨-, rfl⟩ | ⟨-, rfl⟩ | ⟨-, rfl⟩ | ⟨x, -, -, rfl⟩⟩ <;> rw [he] <;>
    exact h

end Sys2Proof.Machine
end

