-- ==== Sys2Proof/Laws/Step.lean ====
section
/-! SUPPORT. What one step can do, said once: by the line at the head of the script, by the turn of the machine, and
by the act of the world. -/

namespace Sys2Proof.Machine

theorem step_nil {s : State} (h : s.host.script = []) : step s = turn s := by simp [step, runScript, h]

theorem step_cons {s : State} {m : Move} {rest : List Move} (h : s.host.script = m :: rest) :
    step s = runMove m s := by simp [step, runScript, h]

theorem step_act {s : State} {a : HostAct} {rest : List Move} (h : s.host.script = .act a :: rest) :
    step s = hostAct a (popScript s) := by rw [step_cons h]; rfl

theorem popScript_cons {s : State} {m : Move} {rest : List Move} (h : s.host.script = m :: rest) :
    popScript s = { s with host.script := rest } := by simp [popScript, h]

theorem turn_reading {s : State} (h : s.blk.rxState = .reading) : turn s = iterate s := by simp [turn, h]

theorem turn_exchange {s : State} {x : Exchange} (hr : s.blk.rxState ≠ .reading) (hx : s.host.exchange = some x) :
    turn s = exchangeTurn x s := by simp [turn, hr, hx]

theorem turn_idle {s : State} (hr : s.blk.rxState ≠ .reading) (hx : s.host.exchange = none) :
    turn s = .next s := by simp [turn, hr, hx]

/-- What a turn can be. -/
theorem turn_next {s t : State} (h : turn s = .next t) :
    (s.blk.rxState = .reading ∧ iterate s = .next t)
    ∨ (s.blk.rxState ≠ .reading ∧ ∃ x, s.host.exchange = some x ∧ exchangeTurn x s = .next t)
    ∨ (s.blk.rxState ≠ .reading ∧ s.host.exchange = none ∧ t = s) := by
  by_cases hr : s.blk.rxState = .reading
  · exact .inl ⟨hr, by rw [← turn_reading hr, h]⟩
  · cases hx : s.host.exchange with
    | some x => exact .inr (.inl ⟨hr, x, rfl, by rw [← turn_exchange hr hx, h]⟩)
    | none =>
      rw [turn_idle hr hx] at h
      exact .inr (.inr ⟨hr, rfl, (Host.Outcome.next.inj h).symm⟩)

/-- What an act of the world can be. -/
theorem hostAct_next {a : HostAct} {s t : State} (h : hostAct a s = .next t) :
    (∃ v, a = .setBid v ∧ t = { s with blk.aBid := v, host.written.bid := true })
    ∨ (∃ v, a = .setCmd v ∧ t = { s with blk.aCmd := v, host.written.cmd := true })
    ∨ (∃ v, a = .setDat v ∧ t = { s with blk.aDat := v, host.written.dat := true })
    ∨ (∃ n, a = .setTmo n ∧ t = setTimeout n s)
    ∨ (∃ c more r, a = .chk c more ∧ s.blk.busy = false ∧ s.host.exchange = none ∧ s.blk.response? = some r
        ∧ t = { s with host := s.host.returns (checkAll (c :: more) s.blk.aBid r) })
    ∨ (∃ r v, a = .read r ∧ hostRead r s.blk = some v ∧ t = { s with host.seen := some v })
    ∨ (∃ bytes, a = .peer bytes ∧ t = peerSends bytes s)
    ∨ (a = .reset ∧ t = resetEvent s) := by
  cases a with
  | chk c more =>
    simp only [hostAct, whenFree_next, withResponse_next, Host.Outcome.next.injEq] at h
    obtain ⟨hb, hx, r, hr, rfl⟩ := h
    simp [hb, hx, hr]
  | read r =>
    cases hv : hostRead r s.blk with
    | none => simp [hostAct, hv] at h
    | some v => simp only [hostAct, hv, Host.Outcome.next.injEq] at h; subst h; simp [hv]
  | _ => simp only [hostAct, Host.Outcome.next.injEq] at h; subst h; simp

/-- The instruction a word stands for is found with nothing changed but `OP` and the script. -/
theorem fetched_frame (i : Instr) (s : State) :
    (fetched i s).blk = { s.blk with op := (opCode i).getD s.blk.op } ∧ (fetched i s).chan = s.chan
      ∧ (fetched i s).free = s.free ∧ (fetched i s).host = { s.host with script := s.host.script.tail } := by
  have := latchOp_frame (opCode i) (popScript s)
  exact ⟨this.2.2.2, this.1, this.2.2.1, this.2.1⟩

/-- What a step can be: the line at the head of the script is run, or the machine takes its turn, or a waiting host
goes on. -/
theorem step_next {s t : State} (h : step s = .next t) :
    (∃ bytes rest i, s.host.script = .word bytes :: rest ∧ decode bytes = .ok i ∧ exec i (fetched i s) = .next t)
    ∨ (∃ rest, s.host.script = .send :: rest ∧ exec .send (popScript s) = .next t)
    ∨ (∃ bid cmd dat echo ed rest, s.host.script = .exec bid cmd dat echo ed :: rest
        ∧ exec (.exec bid cmd dat echo ed) (popScript s) = .next t)
    ∨ (∃ a rest, s.host.script = .act a :: rest ∧ hostAct a (popScript s) = .next t)
    ∨ ((s.host.script = [] ∨ ∃ rest, s.host.script = .wait :: rest) ∧ turn s = .next t)
    ∨ ((∃ rest, s.host.script = .turn :: rest) ∧ turn (popScript s) = .next t)
    ∨ ((∃ rest, s.host.script = .wait :: rest) ∧ t = popScript s) := by
  cases hs : s.host.script with
  | nil => rw [step_nil hs] at h; simp [h]
  | cons m rest =>
    rw [step_cons hs] at h
    cases m with
    | word bytes =>
      simp only [runMove, runWord] at h
      cases hd : decode bytes with
      | error e => simp [hd] at h
      | ok i =>
        rw [hd] at h
        exact .inl ⟨bytes, rest, i, rfl, hd, h⟩
    | wait =>
      simp only [runMove] at h
      split at h
      · simp [h]
      · simp only [Host.Outcome.next.injEq] at h; simp [h]
    | _ => simp only [runMove] at h; simp [h]

theorem run_succ_of (M : Host.Core) {s t : M.State} {n : Nat} (h : M.step s = .next t) :
    M.run (n + 1) s = M.run n t := by rw [Host.Core.run, h]

/-- A run of one step more begins with the step. -/
theorem run_succ {s t : State} {n : Nat} (h : step s = .next t) :
    Host.Core.run core (n + 1) s = Host.Core.run core n t := run_succ_of core h

theorem run_add_of (M : Host.Core) {m n : Nat} {s t : M.State} (h : M.run m s = .next t) :
    M.run (m + n) s = M.run n t := by
  induction m generalizing s with
  | zero => rw [Host.Core.run] at h; cases h; rw [Nat.zero_add]
  | succ m ih =>
    rw [Host.Core.run] at h
    rw [Nat.succ_add, Host.Core.run]
    cases hs : M.step s <;> simp only [hs] at h ⊢
    · exact ih h
    · cases h
    · cases h

/-- A run of `m` steps and then `n` more. -/
theorem run_add {s t : State} {m n : Nat} (h : Host.Core.run core m s = .next t) :
    Host.Core.run core (m + n) s = Host.Core.run core n t := run_add_of core h

/-- No word stands for a host step (R90, D31). -/
theorem decode_ne_hostStep {w : List Byte} {i : Instr} (h : decode w = .ok i) :
    i ≠ .send ∧ ∀ bid cmd dat echo ed, i ≠ .exec bid cmd dat echo ed := by
  unfold decode decodeOp decodeOut18 decodeIn20 at h
  constructor
  · rintro rfl
    repeat (split at h <;> try cases h)
  · rintro bid cmd dat echo ed rfl
    repeat (split at h <;> try cases h)

end Sys2Proof.Machine
end

