-- ==== Sys2Proof/Laws/Effects.lean ====
section
/-! SUPPORT. The effect of one step on the block, said once: every step of the machine changes the registers in one of
the ways of `BlockEffect`, so a claim about the registers over all steps is a case analysis of it. -/

namespace Sys2Proof.Machine

/-- Nothing is in flight in the block. -/
def Block.Free (b : Block) : Prop := b.busy = false ∨ b.rxState ≠ .reading

/-- The ways a step changes the registers. -/
inductive BlockEffect (b : Block) : Block → Prop where
  /-- Nothing, or `OP` with an issued code. -/
  | op (o : BitVec 2) : BlockEffect b { b with op := o }
  /-- The host writes operand registers. -/
  | operands (o : BitVec 2) (bid cmd dat : List Byte) (tmo : Nat) :
      BlockEffect b { b with op := o, aBid := bid, aCmd := cmd, aDat := dat, aTmo := tmo }
  /-- `ENC` succeeds. -/
  | encoded (o : BitVec 2) (f : List Byte) : b.Free → encodeFrame b.aBid b.aCmd b.aDat = .ok f →
      BlockEffect b (Block.installFrame f { b with op := o })
  /-- `ENC` fails. -/
  | notEncoded (o : BitVec 2) (e : ResultCode) : b.Free → encodeFrame b.aBid b.aCmd b.aDat = .error e →
      e = .invalidLength ∨ e = .invalidCharacter → BlockEffect b (Block.dropFrame e { b with op := o })
  /-- `RCV` starts, on the host's `A_TMO` or the one `EXEC` writes. -/
  | started (o : BitVec 2) (tmo : Nat) : b.Free → BlockEffect b (Block.startReceive { b with op := o, aTmo := tmo })
  /-- A check of `RCV` finds the timeout elapsed. -/
  | timedOut (e : Nat) : b.rxState = .reading → b.rxLastE ≤ e → b.rxTmo ≤ e →
      BlockEffect b (Block.endReceive .timedOut .timeoutError (Block.sampleTime e b))
  /-- A read of `RCV` fails. -/
  | failed (e : Nat) : b.rxState = .reading → b.rxLastE ≤ e → e < b.rxTmo →
      BlockEffect b (Block.endReceive .failed .transportRead (Block.sampleTime e b))
  /-- A read of `RCV` gives no byte. -/
  | silent (e : Nat) : b.rxState = .reading → b.rxLastE ≤ e → e < b.rxTmo → BlockEffect b (Block.sampleTime e b)
  /-- A read of `RCV` gives the delimiter. -/
  | completed (e : Nat) : b.rxState = .reading → b.rxLastE ≤ e → e < b.rxTmo →
      BlockEffect b (Block.endReceive .complete .ok (Block.appendByte delim (Block.sampleTime e b)))
  /-- A read of `RCV` gives another byte. -/
  | appended (e : Nat) (x : Byte) : b.rxState = .reading → b.rxLastE ≤ e → e < b.rxTmo → x ≠ delim →
      BlockEffect b (Block.appendByte x (Block.sampleTime e b))
  /-- `DEC` succeeds. -/
  | decoded (o : BitVec 2) (r : Response) : b.rxState = .complete → decodeResponse b.rxBuf = .ok r →
      BlockEffect b (Block.installResponse r { b with op := o })
  /-- `DEC` fails. -/
  | notDecoded (o : BitVec 2) (e : ResultCode) : b.rxState = .complete → decodeResponse b.rxBuf = .error e →
      e = .lengthMismatch ∨ e = .checksumMismatch → BlockEffect b (Block.dropResponse e { b with op := o })
  /-- The reset event. -/
  | reset (n : Nat) : BlockEffect b (Block.reset n)

theorem BlockEffect.rfl {b : Block} : BlockEffect b b := .op b.op

/-- `ENC` issued under some `OP`. -/
theorem enc_effect {s : State} {b : Block} (hb : s.blk = { b with op := s.blk.op }) (h : b.Free) :
    BlockEffect b (enc s).blk := by
  have hargs : encodeFrame s.blk.aBid s.blk.aCmd s.blk.aDat = encodeFrame b.aBid b.aCmd b.aDat := by rw [hb]
  rcases enc_cases s with ⟨f, hf, he⟩ | ⟨e, hee, hf, he⟩ <;> rw [he, State.mapBlock_blk, hb]
  · exact .encoded _ f h (hargs ▸ hf)
  · exact .notEncoded _ e h (hargs ▸ hf) hee

/-- `DEC` issued under some `OP`. -/
theorem dec_effect {s : State} {b : Block} (hb : s.blk = { b with op := s.blk.op }) (h : b.rxState = .complete) :
    BlockEffect b (dec s).blk := by
  have hbuf : s.blk.rxBuf = b.rxBuf := by rw [hb]
  rcases dec_cases s with ⟨r, hr, he⟩ | ⟨e, hee, hr, he⟩ <;> rw [he, State.mapBlock_blk, hb]
  · exact .decoded _ r h (hbuf ▸ hr)
  · exact .notDecoded _ e h (hbuf ▸ hr) hee

/-- An instruction's effect, with the `OP` it was issued by. -/
theorem exec_effect {i : Instr} {s t : State} {b : Block} (hb : s.blk = { b with op := s.blk.op })
    (h : exec i s = .next t) : BlockEffect b t.blk := by
  have hfree : s.blk.busy = false → b.Free := fun hn => .inl (by rw [hb] at hn; exact hn)
  cases i with
  | enc =>
    obtain ⟨hn, -, rfl⟩ := exec_enc_next.1 h
    exact enc_effect hb (hfree hn)
  | rcv =>
    obtain ⟨hn, -, rfl⟩ := exec_rcv_next.1 h
    rw [startReceive_blk, hb]
    exact .started _ b.aTmo (hfree hn)
  | dec =>
    obtain ⟨-, -, hc, rfl⟩ := exec_dec_next.1 h
    exact dec_effect hb (by rw [hb] at hc; exact hc)
  | reserved => rw [exec_reserved] at h; cases h
  | send =>
    obtain ⟨-, -, f, -, rfl⟩ := exec_send_next.1 h
    rw [(transmit_spec f s).1, hb]
    exact .op _
  | out18 c d h l =>
    obtain ⟨-, -, rfl⟩ := exec_out18_next.1 h
    rw [(transmit_spec _ s).1, hb]
    exact .op _
  | in20 =>
    obtain rfl := exec_in20_next.1 h
    rw [peerSends_blk, hb]
    exact .op _
  | exec bid cmd dat echo ed =>
    obtain ⟨-, -, rfl⟩ := exec_exec_next.1 h
    have : (startExchange bid cmd dat echo ed s).blk = { s.blk with aBid := bid, aCmd := cmd, aDat := dat } := rfl
    rw [this, hb]
    exact .operands s.blk.op bid cmd dat b.aTmo

/-- `ENC` puts the frame of its operands into `TXBUF`, or nothing where they have none (R134, R135). -/
theorem enc_txbuf (s : State) :
    (∃ f, encodeFrame s.blk.aBid s.blk.aCmd s.blk.aDat = .ok f ∧ (enc s).blk.txbuf = some f ∧ (enc s).blk.txv = true)
    ∨ ∃ e, encodeFrame s.blk.aBid s.blk.aCmd s.blk.aDat = .error e ∧ (enc s).blk.txbuf = none
        ∧ (enc s).blk.txv = false := by
  rcases enc_cases s with ⟨f, hf, he⟩ | ⟨e, -, hf, he⟩ <;> rw [he]
  · exact .inl ⟨f, hf, rfl, rfl⟩
  · exact .inr ⟨e, hf, rfl, rfl⟩

theorem dec_txbuf (s : State) : (dec s).blk.txbuf = s.blk.txbuf ∧ (dec s).blk.txv = s.blk.txv := by
  rcases dec_cases s with ⟨r, -, he⟩ | ⟨e, -, -, he⟩ <;> rw [he] <;> exact ⟨rfl, rfl⟩

/-- No instruction but `ENC` touches `TXBUF` (R25). -/
theorem exec_txbuf {i : Instr} {s t : State} (hi : i ≠ .enc) (h : exec i s = .next t) :
    t.blk.txbuf = s.blk.txbuf ∧ t.blk.txv = s.blk.txv := by
  cases i with
  | enc => exact absurd rfl hi
  | rcv => obtain ⟨-, -, rfl⟩ := exec_rcv_next.1 h; exact ⟨rfl, rfl⟩
  | dec => obtain ⟨-, -, -, rfl⟩ := exec_dec_next.1 h; exact dec_txbuf s
  | reserved => rw [exec_reserved] at h; cases h
  | send => obtain ⟨-, -, f, -, rfl⟩ := exec_send_next.1 h; rw [(transmit_spec f s).1]; exact ⟨rfl, rfl⟩
  | out18 => obtain ⟨-, -, rfl⟩ := exec_out18_next.1 h; rw [(transmit_spec _ s).1]; exact ⟨rfl, rfl⟩
  | in20 => obtain rfl := exec_in20_next.1 h; exact ⟨rfl, rfl⟩
  | exec => obtain ⟨-, -, rfl⟩ := exec_exec_next.1 h; exact ⟨rfl, rfl⟩

theorem iterateAt_effect {s : State} {e : Nat} (hr : s.blk.rxState = .reading) (hl : s.blk.rxLastE ≤ e) :
    BlockEffect s.blk (iterateAt e s).blk := by
  rcases iterateAt_cases e s with
    ⟨ht, he⟩ | ⟨ht, b, he, ⟨-, rfl⟩ | ⟨-, rfl⟩ | ⟨-, rfl⟩ | ⟨x, hx, -, rfl⟩⟩ <;> rw [he]
  · exact .timedOut e hr hl ht
  · exact .failed e hr hl ht
  · exact .silent e hr hl ht
  · exact .completed e hr hl ht
  · exact .appended e x hr hl ht hx

theorem turn_effect {s t : State} (h : turn s = .next t) : BlockEffect s.blk t.blk := by
  rcases turn_next h with ⟨hr, hi⟩ | ⟨hr, x, hx, hi⟩ | ⟨-, -, rfl⟩
  · obtain ⟨hl, rfl⟩ := iterate_next.1 hi
    have := iterateAt_effect (s := (elapsed s).2) (e := (elapsed s).1) (by simpa using hr) (by simpa using hl)
    rwa [elapsed_blk] at this
  · rcases exchangeTurn_next hi with
      ⟨-, rfl⟩ | ⟨-, f, -, rfl⟩ | ⟨-, rfl⟩ | ⟨-, rfl⟩ | ⟨-, hc, rfl⟩ | ⟨-, r, -, rfl⟩
    · rw [onStatus_blk]; exact enc_effect (issue_frame .enc s).2.2.2 (.inr hr)
    · rw [(sendPhase_cases x f s).1]; exact .rfl
    · exact .started 1 Config.rxTimeout (.inr hr)
    · rw [onStatus_blk]; exact .rfl
    · rw [onStatus_blk]; exact dec_effect (issue_frame .dec s).2.2.2 hc
    · rw [(conclude_frame x r s).1]; exact .rfl
  · exact .rfl

theorem hostAct_effect {a : HostAct} {s t : State} (h : hostAct a s = .next t) : BlockEffect s.blk t.blk := by
  rcases hostAct_next h with ⟨v, -, rfl⟩ | ⟨v, -, rfl⟩ | ⟨v, -, rfl⟩ | ⟨n, -, rfl⟩ | ⟨c, more, r, -, -, -, -, rfl⟩
    | ⟨r, v, -, -, rfl⟩ | ⟨bytes, -, rfl⟩ | ⟨-, rfl⟩
  · exact .operands s.blk.op v s.blk.aCmd s.blk.aDat s.blk.aTmo
  · exact .operands s.blk.op s.blk.aBid v s.blk.aDat s.blk.aTmo
  · exact .operands s.blk.op s.blk.aBid s.blk.aCmd v s.blk.aTmo
  · exact .operands s.blk.op s.blk.aBid s.blk.aCmd s.blk.aDat n
  · exact .rfl
  · exact .rfl
  · exact .rfl
  · exact .reset _

/-- The effect of one step on the registers. -/
theorem step_effect {s t : State} (h : step s = .next t) : BlockEffect s.blk t.blk := by
  rcases step_next h with ⟨_, _, i, -, -, h⟩ | ⟨_, -, h⟩ | ⟨_, _, _, _, _, _, -, h⟩ | ⟨_, _, -, h⟩ | ⟨-, h⟩ | ⟨-, h⟩
    | ⟨-, rfl⟩
  · exact exec_effect (by rw [(fetched_frame i s).1]) h
  · exact exec_effect (s := popScript s) rfl h
  · exact exec_effect (s := popScript s) rfl h
  · exact hostAct_effect (s := popScript s) h
  · exact turn_effect h
  · exact turn_effect (s := popScript s) h
  · exact .rfl

/-- Every step keeps the form of the buffer spaces. -/
theorem Memory.wf_step {s t : State} (hw : Memory.wf s.blk = true) (h : step s = .next t) :
    Memory.wf t.blk = true := by
  have := step_effect h
  generalize t.blk = c at this ⊢
  cases this with
  | encoded o f _ hf =>
    obtain ⟨hl, -, rfl⟩ := encodeFrame_ok.1 hf
    exact Memory.wf_installFrame hw (by rw [outFrame_length]; omega)
  | notEncoded o e => exact Memory.wf_dropFrame hw e
  | started o tmo => exact Memory.wf_startReceive hw
  | decoded o r _ hr => exact Memory.wf_installResponse hw (decodeResponse_lengths hr)
  | notDecoded o e => exact Memory.wf_dropResponse hw e
  | reset n => rfl
  | _ => exact hw

end Sys2Proof.Machine
end

