-- ==== Sys2Proof/Laws/PerInstr.lean ====
section
/-! SUPPORT. Statements about every instruction as syntax, one lemma per constructor. -/

/-- A well-formed instruction with a word has a word of the length its format gives (R82, R90), and the decoder does
not refuse it. -/
def Sys2Proof.Laws.Coded.Statement (i : Sys2Proof.Instr) : Prop :=
  ∀ w, i.wellFormed = true → Sys2Proof.encode i = some w →
    (w.length = 1 ∧ (Sys2Proof.opCode i).isSome ∨ (w.length = 18 ∨ w.length = 20) ∧ Sys2Proof.opCode i = none)
    ∧ (Sys2Proof.decode w).isOk = true

namespace Sys2Proof.Laws.Coded

theorem enc : Statement .enc := by
  intro w _ h
  cases h
  exact ⟨.inl ⟨rfl, rfl⟩, rfl⟩

theorem rcv : Statement .rcv := by
  intro w _ h
  cases h
  exact ⟨.inl ⟨rfl, rfl⟩, rfl⟩

theorem dec : Statement .dec := by
  intro w _ h
  cases h
  exact ⟨.inl ⟨rfl, rfl⟩, rfl⟩

theorem reserved : Statement .reserved := by
  intro w _ h
  cases h
  exact ⟨.inl ⟨rfl, rfl⟩, rfl⟩

theorem send : Statement .send := by
  intro w _ h
  cases h

theorem exec (boardId commandCode requestData expectedCommandEcho : List Byte)
    (expectedEchoData : Option (List Byte)) :
    Statement (.exec boardId commandCode requestData expectedCommandEcho expectedEchoData) := by
  intro w _ h
  cases h

theorem out18 (b : Byte) (c d : List Byte) (h l : Byte) : Statement (.out18 b c d h l) := by
  intro w hw he
  simp only [Instr.wellFormed, Machine.cmdLen, Machine.datLen, Bool.and_eq_true, beq_iff_eq] at hw
  cases he
  match c, d, hw.1.1.1, hw.1.1.2 with
  | [_, _, _], [_, _, _, _, _, _, _, _], _, _ => exact ⟨.inr ⟨.inl rfl, rfl⟩, rfl⟩

theorem in20 (b s1 : Byte) (c : List Byte) (s2 : Byte) (d : List Byte) (s3 k s4 h l : Byte) :
    Statement (.in20 b s1 c s2 d s3 k s4 h l) := by
  intro w hw he
  simp only [Instr.wellFormed, Machine.cmdLen, Machine.datLen, Bool.and_eq_true, beq_iff_eq] at hw
  cases he
  match c, d, hw.1, hw.2 with
  | [_, _, _], [_, _, _, _, _, _, _, _], _, _ => exact ⟨.inr ⟨.inr rfl, rfl⟩, rfl⟩

end Sys2Proof.Laws.Coded
end

