-- ==== Sys2Proof/Tests/Slice0.lean ====
section
/-! SUPPORT. Tests on fixed values, their expected results taken from 95_test_vectors.md (the vector's id stands in the
name), and a witness for the hypotheses of every obligation that has some. -/

namespace Sys2Proof.Tests

open Sys2Proof.Machine

/-! ### A small machine -/

/-- "VER". -/
def ver : List Byte := [0x56, 0x45, 0x52]
/-- "12345678". -/
def digits : List Byte := [0x31, 0x32, 0x33, 0x34, 0x35, 0x36, 0x37, 0x38]
/-- "01ABCD12". -/
def answer : List Byte := [0x30, 0x31, 0x41, 0x42, 0x43, 0x44, 0x31, 0x32]
/-- The frame of E1. -/
def frameE1 : List Byte :=
  [0x31, 0x2C, 0x56, 0x45, 0x52, 0x2C, 0x31, 0x32, 0x33, 0x34, 0x35, 0x36, 0x37, 0x38, 0x2C, 0x42, 0x36, 0x0A]
/-- The raw frame of D1. -/
def frameD1 : List Byte :=
  [0x31, 0x2C, 0x56, 0x45, 0x52, 0x2C, 0x30, 0x31, 0x41, 0x42, 0x43, 0x44, 0x31, 0x32, 0x2C, 0x30, 0x2C, 0x33, 0x30,
    0x0A]
/-- The response of D1. -/
def responseD1 : Response := ⟨0x31, ver, answer, 0x30⟩

/-- A free machine with the operands of E1 and a timeout of 100. -/
def base : State where
  blk := {
    aBid := [0x31], aCmd := ver, aDat := digits, aTmo := 100, txbuf := none, txv := false, rxState := .idle
    rxBuf := [], rxTmo := 0, rxLastE := 0, resp := none, rv := false, rTmo := false, op := 0, busy := false
    status := .ok }
  chan := ⟨[], [], [], [], false, []⟩
  host := ⟨[], none, 0, none, none, none, ⟨true, true, true, true⟩⟩
  free := 1

/-- `base` with a line in its script. -/
def withLine (m : Move) (s : State) : State := { s with host.script := [m] }
/-- `base` with an `EXEC` at a phase. -/
def inExchange (p : Phase) (s : State) : State :=
  { s with host.exchange := some ⟨[0x31], ver, digits, ver, none, p⟩ }
/-- `base` with a frame built. -/
def built : State := { base with blk := base.blk.installFrame frameE1 }
/-- `base` after `RCV` started. -/
def reading : State := startReceive base
/-- A receive whose next sample and read are given. -/
def readingWith (e : Nat) (d : ReadDraw) : State := { reading with chan := ⟨[], [d], [], [e], false, []⟩ }
/-- The same on a channel that has reported an error. -/
def readingAfterError (d : ReadDraw) : State := { reading with chan := ⟨[], [d], [], [0], true, []⟩ }
/-- A complete receive of the given bytes. -/
def complete (raw : List Byte) : State :=
  { base with blk := { base.blk with rxState := .complete, rxBuf := raw, rxTmo := 100 } }
/-- A response decoded. -/
def decoded : State := dec (complete frameD1)

/-- What a view of the next state is, none where there is no next state. -/
def after {α : Type} (r : Result) (f : State → α) : Option α :=
  match r with
  | .next t => some (f t)
  | .fault _ => none
  | .refused _ => none

/-- The refusal, where there is one. -/
def refusal (r : Result) : Option Refusal :=
  match r with
  | .next _ => none
  | .fault _ => none
  | .refused e => some e

/-! ### Well-formedness: one ill-formed term for each check -/

theorem test_wf_exec_echo_length : (Instr.exec [] [] [] [0x56] none).wellFormed = false := by decide
theorem test_wf_exec_echoData_length : (Instr.exec [] [] [] ver (some [0x30])).wellFormed = false := by decide
theorem test_wf_out18_command_length : (Instr.out18 0x31 [0x56] digits 0x42 0x36).wellFormed = false := by decide
theorem test_wf_out18_data_length : (Instr.out18 0x31 ver [0x31] 0x42 0x36).wellFormed = false := by decide
/-- E19's board id, with the digits of its region. -/
theorem test_wf_out18_character : (Instr.out18 0x80 ver digits 0x36 0x37).wellFormed = false := by decide
theorem test_wf_out18_digits : (Instr.out18 0x31 ver digits 0x42 0x37).wellFormed = false := by decide
theorem test_wf_in20_command_length :
    (Instr.in20 0x31 0x2C [0x56] 0x2C answer 0x2C 0x30 0x2C 0x33 0x30).wellFormed = false := by decide
theorem test_wf_in20_data_length :
    (Instr.in20 0x31 0x2C ver 0x2C [] 0x2C 0x30 0x2C 0x33 0x30).wellFormed = false := by decide
theorem test_wf_out18_E1 : (Instr.out18 0x31 ver digits 0x42 0x36).wellFormed = true := by decide
theorem test_wf_exec : (Instr.exec [] [] [] ver (some answer)).wellFormed = true := by decide

/-! ### Decoding: words written out from R83, R84, R90 -/

theorem test_decode_enc : decode [0b00] = .ok .enc := by decide
theorem test_decode_rcv : decode [0b01] = .ok .rcv := by decide
theorem test_decode_dec : decode [0b10] = .ok .dec := by decide
theorem test_decode_reserved : decode [0b11] = .ok .reserved := by decide
theorem test_decode_out18_E1 : decode frameE1 = .ok (.out18 0x31 ver digits 0x42 0x36) := by decide
theorem test_decode_in20_D1 :
    decode frameD1 = .ok (.in20 0x31 0x2C ver 0x2C answer 0x2C 0x30 0x2C 0x33 0x30) := by decide
theorem test_decode_op_too_wide : decode [0x04] = .error (.opTooWide 4) := by decide
/-- E1 with a semicolon for its first comma is no `OUT18` word (R83). -/
theorem test_decode_out18_separator : decode (frameE1.set 1 0x3B) = .error (.badSeparator 1) := by decide
theorem test_decode_in20_delimiter : decode (frameD1.set 19 0x58) = .error .badDelimiter := by decide
theorem test_decode_length : decode (frameD1.take 19) = .error (.noFormatOfLength 19) := by decide

/-- A frame word in the table's numbering: byte 0 is the most significant (R12, R83). -/
theorem test_table_word_out18 :
    decodeTableWord 144 0x312C5645522C31323334353637382C42360A = some (.out18 0x31 ver digits 0x42 0x36) := by decide
theorem test_table_word_in20 :
    decodeTableWord 160 0x312C5645522C303141424344313200302C33300A
      = some (.in20 0x31 0x2C ver 0x2C answer 0x00 0x30 0x2C 0x33 0x30) := by decide

/-! ### A placed word is the first instruction after reset -/

theorem test_reset_runs_enc : (after (step (State.reset.withFetchWord 8 0)) fun _ => ()) = some () := by rfl
theorem test_reset_runs_rcv :
    (after (step (State.reset.withFetchWord 8 1)) fun t => t.blk.rxState) = some .reading := by rfl
theorem test_reset_refuses_dec : refusal (step (State.reset.withFetchWord 8 2)) = some .notComplete := by rfl
theorem test_reset_refuses_reserved : refusal (step (State.reset.withFetchWord 8 3)) = some .reservedOp := by rfl
theorem test_reset_runs_in20 :
    (after (step (State.reset.withFetchWord 160 0x312C5645522C303141424344313200302C33300A))
      fun t => t.chan.pending.length) = some 20 := by rfl
theorem test_reset_idles : (after (step State.reset) fun t => t.host.script) = some [] := by rfl

/-! ### Primitives -/

theorem test_checksum_K2 : checksum (frameE1.take 15) = 0xB6 := by decide
theorem test_checksum_K6 : checksum (List.replicate 16 0xFF ++ [0x0F]) = 0xF1 := by decide
theorem test_hex2_K7 : hex2 0x07 = [0x30, 0x37] := by decide
theorem test_digits_lower_D12 : digitsMatch true 0x32 0x66 (hex2 0x2F) = true := by decide

/-! ### ENC, SEND, OUT18, IN20 -/

theorem test_enc_E1 : (after (exec .enc base) fun t => (t.blk.txbuf, t.blk.status)) = some (some frameE1, .ok) := by
  decide
/-- E22: a failed `ENC` takes the frame of the one before. -/
theorem test_enc_E22 : (after (exec .enc { built with blk.aBid := [] }) fun t => (t.blk.txbuf, t.blk.status))
    = some (none, .invalidLength) := by decide
theorem test_send_T1 :
    (after (exec .send { built with chan.writes := [.ok] }) fun t => (t.chan.sent, t.host.result))
      = some (frameE1, some .ok) := by decide
theorem test_send_T2 :
    (after (exec .send { built with chan.writes := [.error 7] }) fun t => (t.chan.sent, t.host.result))
      = some (frameE1.take 7, some .transportWrite) := by decide
theorem test_out18 :
    (after (exec (.out18 0x31 ver digits 0x42 0x36) { base with chan.writes := [.ok] }) fun t => t.chan.sent)
      = some frameE1 := by decide
theorem test_in20 :
    (after (exec (.in20 0x31 0x2C ver 0x2C answer 0x2C 0x30 0x2C 0x33 0x30) reading) fun t => t.chan.pending)
      = some frameD1 := by decide

/-! ### RCV -/

/-- V2: the delimiter completes the receive. -/
theorem test_rcv_V2 : (after (step (readingWith 0 (.next [0x0A]))) fun t => (t.blk.rxState, t.blk.rxBuf, t.blk.busy))
    = some (.complete, [0x0A], false) := by decide
/-- V11: a sample at the timeout ends the receive. -/
theorem test_rcv_V11 :
    (after (step (readingWith 100 .error)) fun t => (t.blk.rxState, t.blk.status)) = some (.timedOut, .timeoutError) := by
  decide

/-! ### DEC -/

/-- D3: the sentinel sets `R_TMO`. -/
theorem test_dec_D3 :
    (after (exec .dec (complete [0x31, 0x2C, 0x54, 0x4D, 0x4F, 0x2C, 0x30, 0x30, 0x30, 0x30, 0x30, 0x30, 0x30, 0x30,
      0x2C, 0x30, 0x2C, 0x37, 0x42, 0x0A])) fun t => (t.blk.rTmo, t.blk.resp.map Response.cmd))
      = some (true, some [0x54, 0x4D, 0x4F]) := by decide
/-- D13: one bit of a field flipped. -/
theorem test_dec_D13 :
    (after (exec .dec (complete (frameD1.set 8 0x40))) fun t => (t.blk.status, t.blk.rv))
      = some (.checksumMismatch, false) := by decide

/-! ### EXEC -/

/-- X2: a rejecting code is kept. -/
theorem test_exec_X2 :
    (after (step (inExchange .validate { decoded with blk.resp := some { responseD1 with code := 0x31 } })) fun t =>
      (t.host.result, t.host.rejCode)) = some (some (.deviceRejected 0x31), 0x31) := by decide
/-- X4: the board is checked before the code. -/
theorem test_exec_X4 :
    (after (step (inExchange .validate { decoded with blk.resp := some { responseD1 with bid := 0x32, code := 0x31 } }))
      fun t => t.host.result) = some (some .boardMismatch) := by decide

/-- Program B: the code fails, so the command check of the same line is not made. -/
theorem test_chk_programB :
    (after (step (withLine (.act (.chk .bid [.code, .cmd ver]))
      { decoded with blk.resp := some { responseD1 with code := 0x31, cmd := [] } })) fun t =>
        (t.host.result, t.host.rejCode)) = some (some (.deviceRejected 0x31), 0x31) := by decide
/-- Program A: the combined line passes. -/
theorem test_chk_programA :
    (after (step (withLine (.act (.chk .bid [.code, .cmd ver])) decoded)) fun t => t.host.result) = some (some .ok) := by
  decide

/-! ### Witnesses for the hypotheses of the obligations -/

theorem frameE1_ok : FrameOk frameE1 :=
  ⟨by decide, by decide, by decide, by decide, by decide, by decide⟩

theorem base_inv : Inv base where
  block := ⟨rfl, rfl, by rintro f ⟨⟩, rfl, rfl, by rintro r ⟨⟩, rfl, by decide, by rintro ⟨⟩, by rintro ⟨⟩⟩
  exchange := by rintro x ⟨⟩

theorem reading_inv : Inv reading where
  block := ⟨rfl, rfl, by rintro f ⟨⟩, (by decide : delim ∉ ([] : List Byte)), rfl, by rintro r ⟨⟩, rfl, by decide,
    fun _ => .inr rfl, by rintro ⟨⟩⟩
  exchange := by rintro x ⟨⟩

theorem readingWith_inv (e : Nat) (d : ReadDraw) : Inv (readingWith e d) := ⟨reading_inv.block, by rintro x ⟨⟩⟩

theorem withLine_inv {s : State} (h : Inv s) (m : Move) : Inv (withLine m s) := ⟨h.block, h.exchange⟩

theorem built_block : BlockOk built.blk :=
  ⟨rfl, rfl, by rintro f ⟨⟩; exact frameE1_ok, rfl, rfl, by rintro r ⟨⟩, rfl, by decide, by rintro ⟨⟩, by rintro ⟨⟩⟩

theorem witness_DecodeOfEncode : ∃ i w, Instr.wellFormed i = true ∧ encode i = some w :=
  ⟨.out18 0x31 ver digits 0x42 0x36, frameE1, by decide, by decide⟩

theorem witness_EncodeOfDecode : ∃ i, decode frameD1 = .ok i :=
  ⟨.in20 0x31 0x2C ver 0x2C answer 0x2C 0x30 0x2C 0x33 0x30, by decide⟩

theorem witness_RunningSumIsExact :
    (List.replicate 257 (0xFF : Byte)).length ≤ 257
    ∧ ([0x31, 0x2C] : List Byte).Perm [0x2C, 0x31] :=
  ⟨Nat.le_of_eq List.length_replicate, .swap _ _ _⟩

theorem witness_ChecksumIsTheFormula :
    encodeFrame [0x31] ver digits = .ok frameE1 ∧ decodeResponse frameD1 = .ok responseD1 := by decide

/-- Sums 255 and 256 of the two halves: K10 and K8. -/
theorem witness_ChecksumClosedForms :
    sumHi (regionSum [0xFF]) + sumLo (regionSum [0xFF]) ≤ 255
    ∧ 256 ≤ sumHi (regionSum [0xFF, 0xFF, 0x01]) + sumLo (regionSum [0xFF, 0xFF, 0x01]) := by decide

theorem witness_HexDigitCharacters : (9 : BitVec 4).toNat ≤ 9 ∧ 10 ≤ (10 : BitVec 4).toNat := by decide

theorem witness_ChecksumDigitsNameTheByte : hex2 0xB6 = hex2 0xB6 ∧ (0x42 : Byte) ∈ hex2 0xB6 := by decide

theorem witness_EncBuildsTheFrame : base.blk.busy = false ∧ base.host.exchange = none
    ∧ base.blk.aBid.length = 1 ∧ base.blk.aCmd.length = 3 ∧ base.blk.aDat.length = 8
    ∧ ∀ x ∈ base.blk.aBid ++ base.blk.aCmd ++ base.blk.aDat, isPayloadChar x = true := by decide

/-- E19: bit 7 set, in the board id. -/
theorem witness_EncRejectsBadCharacters :
    let s := { base with blk.aBid := [0x80] }
    s.blk.busy = false ∧ s.host.exchange = none ∧ s.blk.aBid.length = 1 ∧ s.blk.aCmd.length = 3
    ∧ s.blk.aDat.length = 8 ∧ 0x80 ∈ s.blk.aBid ++ s.blk.aCmd ++ s.blk.aDat ∧ isPayloadChar 0x80 = false := by decide

/-- E14 for the first clause, E18 for the second. -/
theorem witness_EncFailureLeavesNoFrame :
    let s := { base with blk.aBid := [0x31, 0x32] }
    let u := { base with blk.aCmd := [0x56, 0x0A, 0x52] }
    s.blk.busy = false ∧ s.host.exchange = none ∧ u.blk.busy = false ∧ u.host.exchange = none
    ∧ ¬ (s.blk.aBid.length = 1 ∧ s.blk.aCmd.length = 3 ∧ s.blk.aDat.length = 8)
    ∧ (u.blk.aBid.length = 1 ∧ u.blk.aCmd.length = 3 ∧ u.blk.aDat.length = 8)
    ∧ ∃ x ∈ u.blk.aBid ++ u.blk.aCmd ++ u.blk.aDat, isPayloadChar x = false := by decide

theorem witness_EncIsPure : ∃ t u, exec .enc base = .next t ∧ exec .enc built = .next u
    ∧ base.blk.aBid = built.blk.aBid ∧ base.blk.aCmd = built.blk.aCmd ∧ base.blk.aDat = built.blk.aDat :=
  ⟨_, _, rfl, rfl, rfl, rfl, rfl⟩

theorem witness_BuiltFrameProperties : encodeFrame [0x31] ver digits = .ok frameE1 := by decide

theorem witness_SendIsAllOrError :
    built.blk.busy = false ∧ built.host.exchange = none ∧ built.blk.txv = true ∧ built.blk.txbuf = some frameE1
    ∧ frameE1.length = 18
    ∧ { built with chan.writes := [.ok] }.chan.writes = WriteDraw.ok :: []
    ∧ { built with chan.writes := [.error 7] }.chan.writes = WriteDraw.error 7 :: [] := by decide

theorem witness_SendNeedsAFrame : base.blk.busy = false ∧ base.host.exchange = none ∧ base.blk.txv = false := by decide

theorem witness_Out18GoesOut : base.blk.busy = false ∧ base.host.exchange = none
    ∧ { base with chan.writes := [.ok] }.chan.writes = WriteDraw.ok :: []
    ∧ { base with chan.writes := [.error 7] }.chan.writes = WriteDraw.error 7 :: [] := by decide

theorem witness_In20Arrives :
    ∃ t, exec (.in20 0x31 0x2C ver 0x2C answer 0x2C 0x30 0x2C 0x33 0x30) reading = .next t := ⟨_, rfl⟩

theorem witness_PeerBytesArrive :
    (withLine (.act (.peer [0x0A])) reading).host.script = [.act (.peer [0x0A])] := by decide

theorem witness_RcvStarts : base.blk.busy = false ∧ base.host.exchange = none := by decide

/-- The delimiter and another byte, at the last sample below the timeout (V12). -/
theorem witness_ReceivedByteIsAppended : ∀ b ∈ ([0x0A, 0x41] : List Byte),
    let s := readingWith 99 (.next [b])
    s.host.script = [] ∧ s.blk.rxState = .reading ∧ s.chan.clock = [99] ∧ s.blk.rxLastE ≤ 99 ∧ 99 < s.blk.rxTmo
    ∧ s.chan.answers = [.next [b]] ∧ s.chan.suspect = false ∧ s.chan.pending ++ [b] = [b] := by decide

/-- A channel that has reported an error: whatever is pending, an arrival makes the stream non-empty. -/
theorem witness_ReceivedByteIsAppended_suspect :
    let s := readingAfterError (.next [0x41])
    s.host.script = [] ∧ s.blk.rxState = .reading ∧ s.chan.clock = [0] ∧ s.blk.rxLastE ≤ 0 ∧ 0 < s.blk.rxTmo
    ∧ s.chan.answers = [.next [0x41]] ∧ s.chan.suspect = true
    ∧ ∃ b rest, (if s.chan.suspect then Config.freePending s.free else s.chan.pending) ++ [0x41] = b :: rest := by
  refine ⟨rfl, rfl, rfl, by decide, by decide, rfl, rfl, ?_⟩
  cases h : (if (readingAfterError (.next [0x41])).chan.suspect then Config.freePending 1 else []) ++ [(0x41 : Byte)] with
  | nil => simp at h
  | cons b rest => exact ⟨b, rest, h⟩

theorem witness_ReadErrorFailsTheReceive :
    let s := readingWith 0 .error
    s.host.script = [] ∧ s.blk.rxState = .reading ∧ s.chan.clock = [0] ∧ s.blk.rxLastE ≤ 0 ∧ 0 < s.blk.rxTmo
    ∧ s.chan.answers = [.error] ∧ s.host.exchange = none := by decide

/-- Both draws on an empty stream, and the first on a channel that has reported an error. -/
theorem witness_NoByteGoesOn :
    (∀ d ∈ [ReadDraw.noByte, .next []],
      let s := readingWith 99 d
      s.host.script = [] ∧ s.blk.rxState = .reading ∧ s.chan.clock = [99] ∧ s.blk.rxLastE ≤ 99 ∧ 99 < s.blk.rxTmo
      ∧ s.chan.answers = [d] ∧ s.chan.suspect = false ∧ s.chan.pending = [] ∧ (d = .noByte ∨ d = .next []))
    ∧ (let s := readingAfterError .noByte
      s.host.script = [] ∧ s.blk.rxState = .reading ∧ s.chan.clock = [0] ∧ s.blk.rxLastE ≤ 0 ∧ 0 < s.blk.rxTmo
      ∧ s.chan.answers = [.noByte] ∧ s.chan.suspect = true) := by decide

theorem witness_TimeoutMakesNoRead :
    let s := readingWith 100 .noByte
    s.host.script = [] ∧ s.blk.rxState = .reading ∧ s.chan.clock = [100] ∧ s.blk.rxLastE ≤ 100 ∧ s.blk.rxTmo ≤ 100 := by
  decide

/-- The illegal script of 95_test_vectors.md: 10, then 5. -/
theorem witness_TimeMayNotRunBackwards :
    let s := { readingWith 5 .noByte with blk.rxLastE := 10 }
    s.host.script = [] ∧ s.blk.rxState = .reading ∧ s.chan.clock = [5] ∧ 5 < s.blk.rxLastE := by decide

theorem witness_ReceiverTransitions : Inv reading ∧ Inv (readingWith 0 .error)
    ∧ ∃ t, step (readingWith 0 .error) = .next t := ⟨reading_inv, readingWith_inv _ _, _, rfl⟩

theorem witness_StatusHoldsWhileReading : Inv (readingWith 0 .noByte) ∧ ∃ t, step (readingWith 0 .noByte) = .next t
    ∧ (readingWith 0 .noByte).blk.rxState = .reading ∧ t.blk.rxState = .reading :=
  ⟨readingWith_inv _ _, _, rfl, rfl, rfl⟩

theorem witness_RxBufIsAppendOnly :
    Inv (readingWith 0 (.next [0x41])) ∧ ∃ t, step (readingWith 0 (.next [0x41])) = .next t :=
  ⟨readingWith_inv _ _, _, rfl⟩

theorem witness_OperandsDoNotDisturbAReceive : (∃ t, iterate (readingWith 0 .noByte) = .next t)
    ∧ ∃ f, iterate { readingWith 5 .noByte with blk.rxLastE := 10 } = .fault f := ⟨⟨_, rfl⟩, _, rfl⟩

theorem witness_PendingInputIsCarried :
    (readingWith 0 (.next [0x41])).chan.suspect = false ∧ ∃ t, step (readingWith 0 (.next [0x41])) = .next t :=
  ⟨rfl, _, rfl⟩

/-- V4: a sample of 80 before the one of 120; and a first check, on a timeout of 100 and on one of 0 (V3). -/
theorem witness_TimeoutNeverEarly :
    let s := { readingWith 120 .noByte with blk.rxLastE := 80 }
    let z := { readingWith 0 .noByte with blk.rxTmo := 0 }
    (Inv s ∧ ∃ t, step s = .next t ∧ s.blk.rxState = .reading ∧ t.blk.rxState = .timedOut ∧ s.blk.rxTmo = 100
      ∧ t.blk.rxLastE = 120)
    ∧ (Inv (readingWith 120 .noByte) ∧ ∃ t, step (readingWith 120 .noByte) = .next t
      ∧ (readingWith 120 .noByte).blk.rxState = .reading ∧ t.blk.rxState = .timedOut)
    ∧ (Inv z ∧ ∃ t, step z = .next t ∧ z.blk.rxState = .reading ∧ t.blk.rxState = .timedOut) :=
  ⟨⟨⟨⟨rfl, rfl, by rintro f ⟨⟩, (by decide : delim ∉ ([] : List Byte)), rfl, by rintro r ⟨⟩, rfl, by decide,
      fun _ => .inl (by decide), by rintro ⟨⟩⟩, by rintro x ⟨⟩⟩, _, rfl, rfl, rfl, rfl, rfl⟩,
    ⟨readingWith_inv _ _, _, rfl, rfl, rfl⟩,
    ⟨⟨⟨rfl, rfl, by rintro f ⟨⟩, (by decide : delim ∉ ([] : List Byte)), rfl, by rintro r ⟨⟩, rfl, by decide,
      fun _ => .inr rfl, by rintro ⟨⟩⟩, by rintro x ⟨⟩⟩, _, rfl, rfl, rfl⟩⟩

/-- V11: the first sample is at the timeout, so `k` is 0. -/
theorem witness_ReceiveEndsWhenTimeAdvances :
    let s := readingWith 100 .noByte
    s.host.script = [] ∧ s.blk.rxState = .reading ∧ (s.blk.rxLastE :: s.chan.clock).Pairwise (· ≤ ·)
    ∧ ∃ e, s.chan.clock[0]? = some e ∧ s.blk.rxTmo ≤ e := ⟨rfl, rfl, by decide, 100, rfl, by decide⟩

theorem witness_DecodeChecksOnlyLengthAndDigits : decodeResponse frameD1 = .ok responseD1 := by decide

theorem witness_DecExtractsTheFields :
    let s := complete frameD1
    s.blk.busy = false ∧ s.host.exchange = none ∧ s.blk.rxState = .complete ∧ s.blk.rxBuf = frameD1
    ∧ [0x33, 0x30] = hex2 (checksum (frameD1.take 17)) := by decide

theorem witness_DecSuccessWritesOnlyTheResponse :
    let s := complete frameD1
    s.blk.busy = false ∧ s.host.exchange = none ∧ s.blk.rxState = .complete
    ∧ decodeResponse s.blk.rxBuf = .ok responseD1 := by decide

/-- D10 and D11: 19 and 21 bytes. -/
theorem witness_DecLengthIsCheckedFirst : ∀ raw ∈ [frameD1.take 19, frameD1 ++ [0x58]],
    let s := complete raw
    s.blk.busy = false ∧ s.host.exchange = none ∧ s.blk.rxState = .complete ∧ s.blk.rxBuf.length ≠ 20 := by decide

theorem witness_DecFailureLeavesNoResponse :
    let s := complete [0x0A]
    let u := complete (frameD1.set 8 0x40)
    s.blk.busy = false ∧ s.host.exchange = none ∧ s.blk.rxState = .complete ∧ s.blk.rxBuf.length ≠ 20
    ∧ u.blk.busy = false ∧ u.host.exchange = none ∧ u.blk.rxState = .complete ∧ u.blk.rxBuf.length = 20
    ∧ slice u.blk.rxBuf 17 19 ≠ hex2 (checksum (slice u.blk.rxBuf 0 17)) := by decide

theorem witness_DecNeedsACompleteReceive :
    base.blk.busy = false ∧ base.host.exchange = none ∧ base.blk.rxState ≠ .complete := by decide

theorem witness_DecIsAFunctionOfTheBuffer : ∃ t u, exec .dec (complete frameD1) = .next t
    ∧ exec .dec { complete frameD1 with blk.aBid := [] } = .next u := ⟨_, _, rfl, rfl⟩

theorem witness_ResponseRoundTrip : ver.length = 3 ∧ answer.length = 8 := by decide

theorem witness_ReservedAndBusyAreRefused : reading.blk.busy = true := by decide

theorem witness_OneExchangeAtATime : reading.blk.busy = true ∧ (inExchange .encode base).blk.busy = false
    ∧ (inExchange .encode base).host.exchange.isSome = true ∧ Instr.enc ≠ .reserved
    ∧ ∀ b s1 c s2 d s3 k s4 h l, Instr.enc ≠ .in20 b s1 c s2 d s3 k s4 h l :=
  ⟨rfl, rfl, rfl, by decide, by intros; exact Instr.noConfusion⟩

theorem witness_ExecTakesUpTheExchange : base.blk.busy = false ∧ base.host.exchange = none := by decide

/-- The first clause: an operand of the wrong length. -/
theorem witness_ExchangeStopsAtTheFirstFailure_encode :
    let s := inExchange .encode { base with blk.aBid := [] }
    Inv s ∧ s.host.script = [] ∧ s.blk.rxState ≠ .reading
    ∧ encodeFrame s.blk.aBid s.blk.aCmd s.blk.aDat = .error .invalidLength :=
  ⟨⟨⟨rfl, rfl, by rintro f ⟨⟩, rfl, rfl, by rintro r ⟨⟩, rfl, by decide, by rintro ⟨⟩, by rintro ⟨⟩⟩,
    by rintro x ⟨⟩; exact (by decide : RxState.idle ≠ .reading)⟩, rfl, by decide, by decide⟩

/-- The second: a write that fails. -/
theorem witness_ExchangeStopsAtTheFirstFailure_send :
    let s := inExchange .send { built with chan.writes := [.error 0] }
    Inv s ∧ s.host.script = [] ∧ s.blk.rxState ≠ .reading ∧ s.chan.writes = [.error 0] :=
  ⟨⟨built_block, by rintro x ⟨⟩; exact ⟨by decide, rfl⟩⟩, rfl, by decide, rfl⟩

/-- The third: a receive that timed out. -/
theorem witness_ExchangeStopsAtTheFirstFailure_await :
    let s := inExchange .await
      { base with blk.rxState := .timedOut, blk.rxTmo := 100, blk.rxLastE := 100, blk.status := .timeoutError }
    Inv s ∧ s.host.script = [] ∧ s.blk.rxState ≠ .reading ∧ s.blk.status ≠ .ok :=
  ⟨⟨⟨rfl, rfl, by rintro f ⟨⟩, (by decide : delim ∉ ([] : List Byte)), rfl, by rintro r ⟨⟩, rfl, by decide, by rintro ⟨⟩,
    fun _ => Nat.le_refl 100⟩, by rintro x ⟨⟩; exact .inr (.inr (.inl ⟨rfl, rfl⟩))⟩, rfl, by decide, by decide⟩

/-- The fourth: a lone delimiter received. -/
theorem witness_ExchangeStopsAtTheFirstFailure_decode :
    let s := inExchange .decode (complete [0x0A])
    Inv s ∧ s.host.script = [] ∧ s.blk.rxState ≠ .reading
    ∧ decodeResponse s.blk.rxBuf = .error .lengthMismatch :=
  ⟨⟨⟨rfl, rfl, by rintro f ⟨⟩, ⟨[], rfl, by decide⟩, rfl, by rintro r ⟨⟩, rfl, by decide, by rintro ⟨⟩,
    by rintro ⟨⟩⟩, by rintro x ⟨⟩; rfl⟩, rfl, by decide, by decide⟩

/-- Every clause: board, code, command and data against D1. -/
theorem witness_ChecksInOrder :
    let s := inExchange .validate decoded
    s.host.script = [] ∧ s.blk.rxState ≠ .reading ∧ s.blk.rv = true ∧ s.blk.resp = some responseD1
    ∧ s.host.exchange = some ⟨[0x31], ver, digits, ver, none, .validate⟩
    ∧ ([0x32] : List Byte).head? ≠ some responseD1.bid ∧ ([0x31] : List Byte).head? = some responseD1.bid
    ∧ responseD1.code = 0x30 ∧ { responseD1 with code := 0x31 }.code ≠ 0x30 ∧ responseD1.cmd = ver
    ∧ responseD1.cmd ≠ [0x56, 0x45, 0x58] ∧ responseD1.dat = answer ∧ responseD1.dat ≠ digits := by decide

/-- The request and the response of Scenarios 1 and 2, one byte per read, all samples 0. Which clause applies is the
constant's: either every sample is below it or the first is not. -/
theorem witness_WholeExchange :
    let s := { base with chan := ⟨[], frameD1.map fun x => .next [x], [.ok], List.replicate 20 0, false, []⟩ }
    s.host.script = [] ∧ s.blk.rxState ≠ .reading ∧ s.blk.busy = false ∧ s.host.exchange = none
    ∧ s.chan.suspect = false ∧ s.chan.pending = [] ∧ s.chan.writes = .ok :: []
    ∧ ver.length = 3 ∧ digits.length = 8 ∧ (∀ x ∈ [0x31] ++ ver ++ digits, isPayloadChar x = true)
    ∧ answer.length = 8
    ∧ (∀ x ∈ [0x31, 0x2C] ++ ver ++ [0x2C] ++ answer ++ [0x2C, 0x30, 0x2C], x ≠ 0x0A)
    ∧ s.chan.clock = List.replicate 20 0 ++ [] ∧ (List.replicate 20 0).Pairwise (· ≤ ·)
    ∧ s.chan.answers = (frameD1.map fun x => ReadDraw.next [x]) ++ []
    ∧ [0x31, 0x2C] ++ ver ++ [0x2C] ++ answer ++ [0x2C, 0x30, 0x2C]
        ++ hex2 (checksum ([0x31, 0x2C] ++ ver ++ [0x2C] ++ answer ++ [0x2C, 0x30, 0x2C])) ++ [0x0A] = frameD1 := by
  decide

theorem witness_WholeExchange_clauses :
    (∀ e ∈ List.replicate 20 0, e < Config.rxTimeout)
    ∨ ∀ e, (List.replicate 20 0).head? = some e → Config.rxTimeout ≤ e := by
  rcases Nat.eq_zero_or_pos Config.rxTimeout with h | h
  · exact .inr fun e _ => by omega
  · exact .inl fun e he => by rw [List.eq_of_mem_replicate he]; exact h

theorem witness_StepRunsTheDecodedInstruction :
    decode frameE1 = .ok (.out18 0x31 ver digits 0x42 0x36) ∧ decode [0x04] = .error (.opTooWide 4)
    ∧ (withLine (.word frameE1) base).host.script = [.word frameE1]
    ∧ (withLine (.word [0x04]) base).host.script = [.word [0x04]]
    ∧ (withLine .send built).host.script = [.send]
    ∧ (withLine (.exec [0x31] ver digits ver none) base).host.script = [.exec [0x31] ver digits ver none] := by decide

theorem witness_PlacedWordIsFetched : decodeTableWord 8 1 = some .rcv := by decide

theorem witness_TurnsOfTheMachine : reading.blk.rxState = .reading ∧ base.blk.rxState ≠ .reading
    ∧ base.host.exchange = none ∧ base.host.script = [] ∧ (inExchange .encode base).host.exchange.isSome = true
    ∧ (withLine .turn reading).host.script = [.turn] ∧ (withLine .wait reading).host.script = [.wait]
    ∧ (withLine .wait base).host.exchange = none := by decide

theorem witness_SetWritesOneRegister :
    (withLine (.act (.setBid [0x32])) reading).host.script = [.act (.setBid [0x32])]
    ∧ (withLine (.act (.setCmd ver)) base).host.script = [.act (.setCmd ver)]
    ∧ (withLine (.act (.setDat [])) base).host.script = [.act (.setDat [])]
    ∧ (withLine (.act (.setTmo 0)) base).host.script = [.act (.setTmo 0)] := by decide

/-- A line whose checks all pass, a line whose second check fails, each single check, and a machine without a
response. -/
theorem witness_ChkMakesItsChecksInOrder :
    (withLine (.act (.chk .bid [.code, .cmd ver, .dat answer])) decoded).host.script
      = [.act (.chk .bid [.code, .cmd ver, .dat answer])]
    ∧ decoded.blk.busy = false ∧ decoded.host.exchange = none ∧ decoded.blk.rv = true
    ∧ decoded.blk.resp = some responseD1 ∧ decoded.blk.aBid.head? = some responseD1.bid ∧ responseD1.code = 0x30
    ∧ responseD1.cmd = ver ∧ responseD1.dat = answer
    ∧ Check.bid :: [.cmd [], .code] = [.bid] ++ .cmd [] :: [.code] ∧ responseD1.cmd ≠ []
    ∧ Check.code :: [] = [] ++ .code :: [] ∧ { responseD1 with code := 0x31 }.code ≠ 0x30
    ∧ ([] : List Byte).head? ≠ some responseD1.bid ∧ responseD1.dat ≠ digits
    ∧ base.blk.busy = false ∧ base.host.exchange = none ∧ base.blk.rv = false := by decide

theorem witness_BlockNeverWritesOperands :
    ∃ t u, step (withLine (.act (.setBid [0x32])) base) = .next t ∧ t.blk.aBid ≠ base.blk.aBid
      ∧ step (withLine (.act (.setTmo 7)) base) = .next u ∧ u.blk.aTmo ≠ base.blk.aTmo :=
  ⟨_, _, rfl, by decide, rfl, by decide⟩

/-- A frame built, a frame lost to a failed `ENC`, a frame built by an exchange, a frame lost to reset. -/
theorem witness_FrameChangesOnlyByEncode :
    (∃ t, step (withLine (.word [0]) base) = .next t ∧ t.blk.txv = true)
    ∧ (∃ t, step (withLine (.word [0]) { built with blk.aBid := [] }) = .next t ∧ t.blk.txv = false)
    ∧ (∃ t, step (inExchange .encode base) = .next t ∧ t.blk.txv = true)
    ∧ ∃ t, step (withLine (.act .reset) built) = .next t ∧ t.blk.txv = false :=
  ⟨⟨_, rfl, by decide⟩, ⟨_, rfl, by decide⟩, ⟨_, rfl, by decide⟩, _, rfl, rfl⟩

theorem witness_OnlyFramesGoOut :
    ∃ t, step (withLine .send { built with chan.writes := [.ok] }) = .next t ∧ t.chan.sent ≠ [] :=
  ⟨_, rfl, by decide⟩

/-- Each register in its turn; `built` has a frame, `decoded` a response, `base` neither. -/
theorem witness_ReadsGiveTheRegister :
    (∀ r ∈ [HostReg.aBid, .aCmd, .aDat, .txbuf, .txv, .rxState, .rxBuf, .rBid, .rCmd, .rDat, .rCode, .rv, .rTmo, .busy,
      .status], (withLine (.act (.read r)) base).host.script = [.act (.read r)])
    ∧ base.blk.txv = false ∧ base.blk.rv = false ∧ built.blk.txv = true ∧ built.blk.txbuf = some frameE1
    ∧ decoded.blk.rv = true ∧ decoded.blk.resp = some responseD1 := by decide

theorem witness_ResetValues : (withLine (.act .reset) reading).host.script = [.act .reset] := by decide

theorem witness_StepKeepsTheInvariant :
    Inv (withLine (.word [1]) base) ∧ ∃ t, step (withLine (.word [1]) base) = .next t ∧ t.blk.rxState = .reading :=
  ⟨withLine_inv base_inv _, _, rfl, rfl⟩

theorem witness_DutifulRunsNeverStop : Inv (withLine (.word [0]) base) ∧ SafeRun 2 (withLine (.word [0]) base) :=
  ⟨withLine_inv base_inv _, by decide, by decide, fun t h => by
    cases h
    exact ⟨by decide, by decide, fun _ _ => trivial⟩⟩

end Sys2Proof.Tests
end

section
/-! PROOF. What `ENC`, `DEC` and an iteration of `RCV` leave unchanged, said once per operation. -/

namespace Sys2Proof.Machine

/-- `ENC` writes `TXBUF`, `TXV` and `STATUS` and no other register (R136). -/
theorem enc_blk (s : State) : (enc s).blk = { s.blk with
    txbuf := (enc s).blk.txbuf, txv := (enc s).blk.txv, status := (enc s).blk.status } := by
  rcases enc_cases s with ⟨f, -, h⟩ | ⟨e, -, -, h⟩ <;> rw [h] <;> rfl

@[simp] theorem enc_chan (s : State) : (enc s).chan = s.chan := by
  rcases enc_cases s with ⟨f, -, h⟩ | ⟨e, -, -, h⟩ <;> rw [h] <;> rfl

@[simp] theorem enc_host (s : State) : (enc s).host = s.host := by
  rcases enc_cases s with ⟨f, -, h⟩ | ⟨e, -, -, h⟩ <;> rw [h] <;> rfl

/-- `DEC` writes the response registers, `RV`, `R_TMO` and `STATUS` and no other register (R200). -/
theorem dec_blk (s : State) : (dec s).blk = { s.blk with
    resp := (dec s).blk.resp, rv := (dec s).blk.rv, rTmo := (dec s).blk.rTmo, status := (dec s).blk.status } := by
  rcases dec_cases s with ⟨r, -, h⟩ | ⟨e, -, -, h⟩ <;> rw [h] <;> rfl

@[simp] theorem dec_chan (s : State) : (dec s).chan = s.chan := by
  rcases dec_cases s with ⟨r, -, h⟩ | ⟨e, -, -, h⟩ <;> rw [h] <;> rfl

@[simp] theorem dec_host (s : State) : (dec s).host = s.host := by
  rcases dec_cases s with ⟨r, -, h⟩ | ⟨e, -, -, h⟩ <;> rw [h] <;> rfl

/-- An iteration writes `RX_STATE`, `RX_BUF`, `RX_LASTE`, `BUSY` and `STATUS` and no other register (R167). -/
theorem iterateAt_blk (e : Nat) (s : State) : (iterateAt e s).blk = { s.blk with
    rxState := (iterateAt e s).blk.rxState, rxBuf := (iterateAt e s).blk.rxBuf,
    rxLastE := (iterateAt e s).blk.rxLastE, busy := (iterateAt e s).blk.busy,
    status := (iterateAt e s).blk.status } := by
  rcases iterateAt_cases e s with ⟨-, h⟩ | ⟨-, b, h, ⟨-, rfl⟩ | ⟨-, rfl⟩ | ⟨-, rfl⟩ | ⟨x, -, -, rfl⟩⟩ <;> rw [h] <;> rfl

@[simp] theorem iterateAt_host (e : Nat) (s : State) : (iterateAt e s).host = s.host := by
  rcases iterateAt_cases e s with ⟨-, h⟩ | ⟨-, b, h, -⟩ <;> rw [h]
  rw [chanRead_host, State.mapBlock_host]

end Sys2Proof.Machine
end

section
/-! PROOF. The invariant of the machine holds after power-on and is kept by every step (O57, O58). -/

namespace Sys2Proof.Machine

/-! ### A built frame has the form of R137 -/

theorem outFrame_beforeDelimiter {b c d : List Byte} (h : b.length + c.length + d.length = 12) :
    slice (outFrame b c d) 0 17 = outRegion b c d ++ checksumDigits (outRegion b c d) := by
  have hl : (outRegion b c d ++ checksumDigits (outRegion b c d)).length = 17 := by
    simp [outRegion_length, checksumDigits, h]
  rw [slice, List.drop_zero, outFrame, List.take_left' hl]

theorem outRegion_payload {b c d : List Byte} (h : ∀ x ∈ b ++ c ++ d, isPayloadChar x = true) :
    ∀ x ∈ outRegion b c d, isPayloadChar x = true := by
  have hsep : isPayloadChar sep = true := by decide
  intro x hx
  simp only [outRegion, List.mem_append, List.mem_singleton] at hx
  rcases hx with ((((hb | rfl) | hc) | rfl) | hd) | rfl
  · exact h x (by simp [hb])
  · exact hsep
  · exact h x (by simp [hc])
  · exact hsep
  · exact h x (by simp [hd])
  · exact hsep

theorem checksumDigits_ne_delim (s : List Byte) : ∀ x ∈ checksumDigits s, x ≠ delim := by
  simp [checksumDigits, hex2, (hexChar_ne _).1]

/-- What the encoder accepts becomes a frame (R137). -/
theorem frameOk_of_encodeFrame {b c d f : List Byte} (h : encodeFrame b c d = .ok f) : FrameOk f := by
  obtain ⟨⟨hb, hc, hd⟩, hp, rfl⟩ := encodeFrame_ok.1 h
  have hl : b.length + c.length + d.length = 12 := by omega
  have hregion : slice (outFrame b c d) 0 encRegion = outRegion b c d := outFrame_region hl
  have hpayload := outRegion_payload hp
  refine ⟨by rw [outFrame_length, hl]; rfl, ?separators, ?delimiter, ?oneDelimiter, ?digits, ?payload⟩
  case separators =>
    obtain ⟨_, rfl⟩ := List.length_eq_one_iff.1 hb
    obtain ⟨_, _, _, rfl⟩ := list_of_length_three hc
    obtain ⟨_, _, _, _, _, _, _, _, rfl⟩ := list_of_length_eight hd
    exact ⟨rfl, rfl, rfl⟩
  case delimiter =>
    obtain ⟨_, rfl⟩ := List.length_eq_one_iff.1 hb
    obtain ⟨_, _, _, rfl⟩ := list_of_length_three hc
    obtain ⟨_, _, _, _, _, _, _, _, rfl⟩ := list_of_length_eight hd
    rfl
  case oneDelimiter =>
    rw [outFrame_beforeDelimiter hl]
    intro x hx
    rcases List.mem_append.1 hx with hr | hs
    · exact isPayloadChar_ne_delim (hpayload x hr)
    · exact checksumDigits_ne_delim _ x hs
  case digits => rw [hregion, outFrame_digits hl]
  case payload => rw [hregion]; exact hpayload

/-! ### Every effect on the registers keeps what they hold in relation to each other -/

theorem blockOk_reset (n : Nat) : BlockOk (Block.reset n) where
  busy := rfl
  txv := rfl
  frame := by rintro f ⟨⟩
  rxBuf := rfl
  rv := rfl
  resp := by rintro r ⟨⟩
  rTmo := rfl
  status := Nat.zero_le 6
  readingTime := by rintro ⟨⟩
  timedOutTime := by rintro ⟨⟩

/-- A block in which nothing is in flight is not receiving (R37). -/
theorem BlockOk.not_reading {b : Block} (hb : BlockOk b) (h : b.Free) : b.rxState ≠ .reading := by
  rcases h with h | h
  · simpa [hb.busy] using h
  · exact h

/-- There is no response outside `Complete`. -/
theorem BlockOk.resp_none {b : Block} (hb : BlockOk b) (h : b.rxState ≠ .complete) : b.resp = none := by
  cases hr : b.resp with
  | none => rfl
  | some r => exact absurd (hb.resp r hr).1 h

/-- While the block is receiving there is no valid response, and `RX_BUF` holds no delimiter. -/
theorem BlockOk.reading {b : Block} (hb : BlockOk b) (h : b.rxState = .reading) :
    b.resp = none ∧ b.rv = false ∧ b.rTmo = false ∧ delim ∉ b.rxBuf := by
  have hr := hb.resp_none (by simp [h])
  have hbuf := hb.rxBuf
  rw [RxBufOk, h] at hbuf
  exact ⟨hr, by simp [hb.rv, hr], by simp [hb.rTmo, hr], hbuf⟩

/-- The operand registers and `OP` stand in no relation to the other registers. -/
theorem BlockOk.setOperands {b : Block} (hb : BlockOk b) (o : BitVec 2) (bid cmd dat : List Byte) (tmo : Nat) :
    BlockOk { b with op := o, aBid := bid, aCmd := cmd, aDat := dat, aTmo := tmo } where
  busy := hb.busy
  txv := hb.txv
  frame := hb.frame
  rxBuf := hb.rxBuf
  rv := hb.rv
  resp := hb.resp
  rTmo := hb.rTmo
  status := hb.status
  readingTime := hb.readingTime
  timedOutTime := hb.timedOutTime

theorem BlockOk.setOp {b : Block} (hb : BlockOk b) (o : BitVec 2) : BlockOk { b with op := o } :=
  hb.setOperands o b.aBid b.aCmd b.aDat b.aTmo

theorem BlockOk.installFrame {b : Block} (hb : BlockOk b) {f : List Byte} (hf : FrameOk f) :
    BlockOk (b.installFrame f) where
  busy := hb.busy
  txv := rfl
  frame := by rintro _ ⟨⟩; exact hf
  rxBuf := hb.rxBuf
  rv := hb.rv
  resp := hb.resp
  rTmo := hb.rTmo
  status := Nat.zero_le 6
  readingTime := hb.readingTime
  timedOutTime := hb.timedOutTime

theorem BlockOk.dropFrame {b : Block} (hb : BlockOk b) {e : ResultCode} (he : e.code.toNat ≤ 6) :
    BlockOk (b.dropFrame e) where
  busy := hb.busy
  txv := rfl
  frame := by rintro _ ⟨⟩
  rxBuf := hb.rxBuf
  rv := hb.rv
  resp := hb.resp
  rTmo := hb.rTmo
  status := he
  readingTime := hb.readingTime
  timedOutTime := hb.timedOutTime

theorem BlockOk.startReceive {b : Block} (hb : BlockOk b) : BlockOk b.startReceive where
  busy := rfl
  txv := hb.txv
  frame := hb.frame
  rxBuf := List.not_mem_nil
  rv := rfl
  resp := by rintro _ ⟨⟩
  rTmo := rfl
  status := hb.status
  readingTime := fun _ => .inr rfl
  timedOutTime := by rintro ⟨⟩

/-- A passed check of the timeout. -/
theorem BlockOk.sampleTime {b : Block} (hb : BlockOk b) (hr : b.rxState = .reading) {e : Nat} (he : e < b.rxTmo) :
    BlockOk (b.sampleTime e) where
  busy := hb.busy
  txv := hb.txv
  frame := hb.frame
  rxBuf := hb.rxBuf
  rv := hb.rv
  resp := hb.resp
  rTmo := hb.rTmo
  status := hb.status
  readingTime := fun _ => .inl he
  timedOutTime := by rw [Block.sampleTime_rxState, hr]; rintro ⟨⟩

theorem BlockOk.appendByte {b : Block} (hb : BlockOk b) (hr : b.rxState = .reading) {x : Byte} (hx : x ≠ delim) :
    BlockOk (b.appendByte x) where
  busy := hb.busy
  txv := hb.txv
  frame := hb.frame
  rxBuf := by
    rw [RxBufOk, Block.appendByte_rxState, hr]
    simpa [hx.symm] using (hb.reading hr).2.2.2
  rv := hb.rv
  resp := by simp [(hb.reading hr).1]
  rTmo := hb.rTmo
  status := hb.status
  readingTime := hb.readingTime
  timedOutTime := hb.timedOutTime

/-- A receive that ends, with its last sample `e` and the bytes `buf` it has read. -/
theorem BlockOk.endReceive {b : Block} (hb : BlockOk b) (hr : b.rxState = .reading) {st : RxState} {c : ResultCode}
    {e : Nat} {buf : List Byte} (hst : st ≠ .reading) (hc : c.code.toNat ≤ 6)
    (hbuf : RxBufOk { b with rxState := st, rxBuf := buf }) (htime : st = .timedOut → b.rxTmo ≤ e) :
    BlockOk (Block.endReceive st c { b with rxLastE := e, rxBuf := buf }) where
  busy := by simpa using hst
  txv := hb.txv
  frame := hb.frame
  rxBuf := hbuf
  rv := hb.rv
  resp := by simp [(hb.reading hr).1]
  rTmo := hb.rTmo
  status := hc
  readingTime := fun h => absurd h hst
  timedOutTime := htime

theorem BlockOk.installResponse {b : Block} (hb : BlockOk b) (hc : b.rxState = .complete) {r : Response}
    (hr : decodeResponse b.rxBuf = .ok r) : BlockOk (b.installResponse r) where
  busy := hb.busy
  txv := hb.txv
  frame := hb.frame
  rxBuf := hb.rxBuf
  rv := rfl
  resp := by rintro _ ⟨⟩; exact ⟨hc, hr⟩
  rTmo := rfl
  status := Nat.zero_le 6
  readingTime := hb.readingTime
  timedOutTime := hb.timedOutTime

theorem BlockOk.dropResponse {b : Block} (hb : BlockOk b) {e : ResultCode} (he : e.code.toNat ≤ 6) :
    BlockOk (b.dropResponse e) where
  busy := hb.busy
  txv := hb.txv
  frame := hb.frame
  rxBuf := hb.rxBuf
  rv := rfl
  resp := by rintro _ ⟨⟩
  rTmo := rfl
  status := he
  readingTime := hb.readingTime
  timedOutTime := hb.timedOutTime

/-- Every way a step changes the registers keeps what they hold in relation to each other. -/
theorem BlockOk.of_effect {b c : Block} (hb : BlockOk b) (h : BlockEffect b c) : BlockOk c := by
  cases h with
  | op o => exact hb.setOp o
  | operands o bid cmd dat tmo => exact hb.setOperands o bid cmd dat tmo
  | encoded o f _ hf => exact (hb.setOp o).installFrame (frameOk_of_encodeFrame hf)
  | notEncoded o e _ _ he => exact (hb.setOp o).dropFrame (by rcases he with rfl | rfl <;> decide)
  | started o tmo => exact (hb.setOperands o b.aBid b.aCmd b.aDat tmo).startReceive
  | timedOut e hr _ ht =>
    exact hb.endReceive hr (by decide) (by decide) (hb.reading hr).2.2.2 fun _ => ht
  | failed e hr => exact hb.endReceive hr (by decide) (by decide) (hb.reading hr).2.2.2 (by rintro ⟨⟩)
  | silent e hr _ ht => exact hb.sampleTime hr ht
  | completed e hr =>
    exact hb.endReceive hr (by decide) (by decide) ⟨b.rxBuf, rfl, (hb.reading hr).2.2.2⟩ (by rintro ⟨⟩)
  | appended e x hr _ ht hx => exact (hb.sampleTime hr ht).appendByte hr hx
  | decoded o r hc hr => exact (hb.setOp o).installResponse hc hr
  | notDecoded o e _ _ he => exact (hb.setOp o).dropResponse (by rcases he with rfl | rfl <;> decide)
  | reset n => exact blockOk_reset n

/-! ### Every step keeps the host's place in an exchange -/

/-- With no exchange in flight the registers are all there is to the invariant. -/
theorem inv_of_no_exchange {s : State} (hb : BlockOk s.blk) (hx : s.host.exchange = none) : Inv s where
  block := hb
  exchange x h := by rw [hx] at h; cases h

/-- With an exchange in flight its place counts as well. -/
theorem inv_of_exchange {s : State} {x : Exchange} (hb : BlockOk s.blk) (hx : s.host.exchange = some x)
    (h : ExchangeOk x.phase s.blk) : Inv s where
  block := hb
  exchange y hy := by rw [hx] at hy; cases hy; exact h

/-- The place in an exchange speaks of four registers only. -/
theorem ExchangeOk.congr {p : Phase} {b c : Block} (h : ExchangeOk p b) (hx : c.rxState = b.rxState)
    (ht : c.txv = b.txv) (hs : c.status = b.status) (hr : c.rv = b.rv) : ExchangeOk p c := by
  unfold ExchangeOk at *
  rwa [hx, ht, hs, hr]

/-- A step that leaves the exchange and the four registers it speaks of keeps the invariant. -/
theorem Inv.congr {s t : State} (hi : Inv s) (hb : BlockOk t.blk) (hx : t.host.exchange = s.host.exchange)
    (hst : t.blk.rxState = s.blk.rxState) (ht : t.blk.txv = s.blk.txv) (hs : t.blk.status = s.blk.status)
    (hr : t.blk.rv = s.blk.rv) : Inv t :=
  ⟨hb, fun x h => (hi.exchange x (hx ▸ h)).congr hst ht hs hr⟩

theorem Inv.of_blk_eq {s t : State} (hi : Inv s) (hb : t.blk = s.blk) (hx : t.host.exchange = s.host.exchange) :
    Inv t := by
  refine hi.congr ?_ hx ?_ ?_ ?_ ?_ <;> rw [hb]
  exact hi.block

theorem Inv.of_popScript {s : State} (hi : Inv s) : Inv (popScript s) := hi.of_blk_eq rfl rfl

theorem Inv.of_fetched {s : State} (hi : Inv s) (i : Instr) : Inv (fetched i s) := by
  obtain ⟨hb, -, -, hh⟩ := fetched_frame i s
  refine hi.congr ?_ (by rw [hh]) ?_ ?_ ?_ ?_ <;> rw [hb]
  exact hi.block.setOp _

/-- An instruction other than `IN20` needs a machine without an exchange, and only `EXEC` leaves one (R264, R275). -/
theorem exec_exchange {i : Instr} {s t : State} (h : exec i s = .next t) :
    t.host.exchange = none
    ∨ (t.host.exchange = s.host.exchange ∧ t.blk = s.blk)
    ∨ ∃ x, t.host.exchange = some x ∧ x.phase = .encode ∧ s.blk.busy = false ∧ t.blk.rxState = s.blk.rxState := by
  cases i with
  | enc => obtain ⟨-, hx, rfl⟩ := exec_enc_next.1 h; exact .inl (by rw [enc_host, hx])
  | rcv => obtain ⟨-, hx, rfl⟩ := exec_rcv_next.1 h; exact .inl hx
  | dec => obtain ⟨-, hx, -, rfl⟩ := exec_dec_next.1 h; exact .inl (by rw [dec_host, hx])
  | reserved => rw [exec_reserved] at h; cases h
  | send =>
    obtain ⟨-, hx, f, -, rfl⟩ := exec_send_next.1 h
    obtain ⟨-, -, -, -, hh, -⟩ := transmit_spec f s
    exact .inl (by rw [hh]; exact hx)
  | out18 b c d g l =>
    obtain ⟨-, hx, rfl⟩ := exec_out18_next.1 h
    obtain ⟨-, -, -, -, hh, -⟩ := transmit_spec ([b, sep] ++ c ++ [sep] ++ d ++ [sep, g, l, delim]) s
    exact .inl (by rw [hh]; exact hx)
  | in20 => obtain rfl := exec_in20_next.1 h; exact .inr (.inl ⟨rfl, rfl⟩)
  | exec => obtain ⟨hb, -, rfl⟩ := exec_exec_next.1 h; exact .inr (.inr ⟨_, rfl, rfl, hb, rfl⟩)

theorem Inv.of_exec {i : Instr} {s t : State} (hi : Inv s) (h : exec i s = .next t) : Inv t := by
  have hb : BlockOk t.blk := hi.block.of_effect (exec_effect rfl h)
  rcases exec_exchange h with hx | ⟨hx, hblk⟩ | ⟨x, hx, hp, hbusy, hst⟩
  · exact inv_of_no_exchange hb hx
  · exact hi.of_blk_eq hblk hx
  · refine inv_of_exchange hb hx ?_
    rw [hp]
    show t.blk.rxState ≠ .reading
    rw [hst]
    exact hi.block.not_reading (.inl hbusy)

/-- While the block is receiving, an exchange in flight awaits the end of the receive. -/
theorem Inv.phase_of_reading {s : State} (hi : Inv s) (hr : s.blk.rxState = .reading) {x : Exchange}
    (hx : s.host.exchange = some x) : x.phase = .await := by
  have h := hi.exchange x hx
  have hrv := (hi.block.reading hr).2.1
  cases hp : x.phase <;> simp_all [ExchangeOk]

/-- After an iteration the block is still receiving, or the receive has ended in one of its three ways. -/
theorem iterateAt_await {e : Nat} {s : State} (hr : s.blk.rxState = .reading) :
    ExchangeOk .await (iterateAt e s).blk := by
  rcases iterateAt_cases e s with ⟨-, h⟩ | ⟨-, b, h, ⟨-, rfl⟩ | ⟨-, rfl⟩ | ⟨-, rfl⟩ | ⟨x, -, -, rfl⟩⟩ <;> rw [h]
  · exact .inr (.inr (.inl ⟨rfl, rfl⟩))
  · exact .inr (.inr (.inr ⟨rfl, rfl⟩))
  · exact .inl hr
  · exact .inr (.inl ⟨rfl, rfl⟩)
  · exact .inl hr

theorem Inv.of_iterate {s t : State} (hi : Inv s) (hr : s.blk.rxState = .reading) (hb : BlockOk t.blk)
    (h : iterate s = .next t) : Inv t := by
  obtain ⟨-, rfl⟩ := iterate_next.1 h
  have hx : (iterateAt (elapsed s).1 (elapsed s).2).host = s.host := by rw [iterateAt_host, elapsed_host]
  cases hs : s.host.exchange with
  | none => exact inv_of_no_exchange hb (by rw [hx, hs])
  | some x =>
    refine inv_of_exchange (x := x) hb (by rw [hx, hs]) ?_
    rw [hi.phase_of_reading hr hs]
    exact iterateAt_await (by rw [elapsed_blk, hr])

/-- A phase that goes by `STATUS` needs its next phase's condition only where the status is `Ok`. -/
theorem inv_onStatus {p : Phase} {x : Exchange} {s : State} (hb : BlockOk s.blk)
    (h : s.blk.status = .ok → ExchangeOk p s.blk) : Inv (onStatus p x s) := by
  rcases onStatus_cases p x s with ⟨hs, he⟩ | ⟨-, he⟩ <;> rw [he]
  · exact inv_of_exchange hb rfl (h hs)
  · exact inv_of_no_exchange hb rfl

/-- `STATUS` is `Ok` after `ENC` only with a frame. -/
theorem enc_txv_of_ok {s : State} (h : (enc s).blk.status = .ok) : (enc s).blk.txv = true := by
  rcases enc_cases s with ⟨f, -, he⟩ | ⟨e, hee, -, he⟩ <;> rw [he] at h ⊢
  · rfl
  · rcases hee with rfl | rfl <;> cases h

/-- `STATUS` is `Ok` after `DEC` only with a response. -/
theorem dec_rv_of_ok {s : State} (h : (dec s).blk.status = .ok) : (dec s).blk.rv = true := by
  rcases dec_cases s with ⟨f, -, he⟩ | ⟨e, hee, -, he⟩ <;> rw [he] at h ⊢
  · rfl
  · rcases hee with rfl | rfl <;> cases h

/-- A receive that has ended with `STATUS` `Ok` has a message. -/
theorem complete_of_await {b : Block} (h : ExchangeOk .await b) (hr : b.rxState ≠ .reading) (hs : b.status = .ok) :
    b.rxState = .complete := by
  rcases h with h | ⟨h, -⟩ | ⟨-, h⟩ | ⟨-, h⟩
  · exact absurd h hr
  · exact h
  · rw [hs] at h; cases h
  · rw [hs] at h; cases h

theorem Inv.of_exchangeTurn {x : Exchange} {s t : State} (hi : Inv s) (hr : s.blk.rxState ≠ .reading)
    (hx : s.host.exchange = some x) (hb : BlockOk t.blk) (h : exchangeTurn x s = .next t) : Inv t := by
  have hplace := hi.exchange x hx
  rcases exchangeTurn_next h with
    ⟨-, rfl⟩ | ⟨-, f, -, rfl⟩ | ⟨-, rfl⟩ | ⟨hp, rfl⟩ | ⟨-, -, rfl⟩ | ⟨-, r, -, rfl⟩
  · rw [onStatus_blk] at hb
    refine inv_onStatus hb fun hs => ⟨?_, enc_txv_of_ok hs⟩
    rw [enc_blk, (issue_frame .enc s).2.2.2]
    exact hr
  · obtain ⟨hblk, -, hx' | hx'⟩ := sendPhase_cases x f s
    · exact inv_of_exchange hb hx' (by rw [hblk]; exact hr)
    · exact inv_of_no_exchange hb hx'
  · exact inv_of_exchange hb rfl (.inl rfl)
  · rw [hp] at hplace
    exact inv_onStatus hi.block (complete_of_await hplace hr)
  · rw [onStatus_blk] at hb
    exact inv_onStatus hb dec_rv_of_ok
  · exact inv_of_no_exchange hb (conclude_frame x r s).2.2

theorem Inv.of_turn {s t : State} (hi : Inv s) (h : turn s = .next t) : Inv t := by
  have hb : BlockOk t.blk := hi.block.of_effect (turn_effect h)
  rcases turn_next h with ⟨hr, h⟩ | ⟨hr, x, hx, h⟩ | ⟨-, -, rfl⟩
  · exact hi.of_iterate hr hb h
  · exact hi.of_exchangeTurn hr hx hb h
  · exact hi

theorem Inv.of_hostAct {a : HostAct} {s t : State} (hi : Inv s) (h : hostAct a s = .next t) : Inv t := by
  have hb : BlockOk t.blk := hi.block.of_effect (hostAct_effect h)
  rcases hostAct_next h with ⟨v, -, rfl⟩ | ⟨v, -, rfl⟩ | ⟨v, -, rfl⟩ | ⟨n, -, rfl⟩ | ⟨c, more, r, -, -, -, -, rfl⟩
    | ⟨r, v, -, -, rfl⟩ | ⟨bytes, -, rfl⟩ | ⟨-, rfl⟩
  case inr.inr.inr.inr.inr.inr.inr => exact inv_of_no_exchange hb rfl
  all_goals exact hi.congr hb rfl rfl rfl rfl rfl

theorem Inv.of_step {s t : State} (hi : Inv s) (h : step s = .next t) : Inv t := by
  rcases step_next h with ⟨_, _, i, -, -, h⟩ | ⟨_, -, h⟩ | ⟨_, _, _, _, _, _, -, h⟩ | ⟨_, _, -, h⟩ | ⟨-, h⟩ | ⟨-, h⟩
    | ⟨-, rfl⟩
  · exact (hi.of_fetched i).of_exec h
  · exact hi.of_popScript.of_exec h
  · exact hi.of_popScript.of_exec h
  · exact hi.of_popScript.of_hostAct h
  · exact hi.of_turn h
  · exact hi.of_popScript.of_turn h
  · exact hi.of_popScript

/-- Settles O57: nothing is in flight after power-on. -/
theorem resetMeetsTheInvariant : Obligations.ResetMeetsTheInvariant :=
  inv_of_no_exchange (blockOk_reset 0) rfl

/-- Settles O58: the registers by the effect of a step on them, the exchange by its phases. -/
theorem stepKeepsTheInvariant : Obligations.StepKeepsTheInvariant :=
  fun _ _ hi h => hi.of_step h

end Sys2Proof.Machine
end

section
/-! PROOF. `STATUS` while the block is receiving, and how `RX_BUF` changes (O27, O28). -/

namespace Sys2Proof.Machine

/-! ### `STATUS` while the block is receiving (O27) -/

/-- `STATUS` is written only by what needs a block that is not receiving or leaves it so. -/
theorem BlockOk.status_of_effect {b c : Block} (hb : BlockOk b) (h : BlockEffect b c) (hr : b.rxState = .reading)
    (hr' : c.rxState = .reading) : c.status = b.status := by
  cases h with
  | op | operands | silent | appended => rfl
  | encoded _ _ hf => exact absurd hr (hb.not_reading hf)
  | notEncoded _ _ hf => exact absurd hr (hb.not_reading hf)
  | started => rfl
  | timedOut | failed | completed | reset => cases hr'
  | decoded _ _ hc => rw [hr] at hc; cases hc
  | notDecoded _ _ hc => rw [hr] at hc; cases hc

/-- Settles O27: by the effects of a step on the registers. -/
theorem statusHoldsWhileReading : Obligations.StatusHoldsWhileReading :=
  fun _ _ hi h hr hr' => hi.block.status_of_effect (step_effect h) hr hr'

/-! ### `RX_BUF` (O28) -/

/-- An instruction empties `RX_BUF` only where nothing is in flight. -/
theorem exec_rxBuf {i : Instr} {s t : State} (h : exec i s = .next t) :
    t.blk.rxBuf = s.blk.rxBuf ∨ (s.blk.busy = false ∧ t.blk.rxState = .reading ∧ t.blk.rxBuf = []) := by
  cases i with
  | enc => obtain ⟨-, -, rfl⟩ := exec_enc_next.1 h; exact .inl (by rw [enc_blk])
  | rcv => obtain ⟨hb, -, rfl⟩ := exec_rcv_next.1 h; exact .inr ⟨hb, rfl, rfl⟩
  | dec => obtain ⟨-, -, -, rfl⟩ := exec_dec_next.1 h; exact .inl (by rw [dec_blk])
  | reserved => rw [exec_reserved] at h; cases h
  | send => obtain ⟨-, -, f, -, rfl⟩ := exec_send_next.1 h; exact .inl (by rw [(transmit_spec f s).1])
  | out18 => obtain ⟨-, -, rfl⟩ := exec_out18_next.1 h; exact .inl (by rw [(transmit_spec _ s).1])
  | in20 => obtain rfl := exec_in20_next.1 h; exact .inl rfl
  | exec => obtain ⟨-, -, rfl⟩ := exec_exec_next.1 h; exact .inl rfl

theorem iterateAt_rxBuf (e : Nat) (s : State) :
    (iterateAt e s).blk.rxBuf = s.blk.rxBuf ∨ ∃ x, (iterateAt e s).blk.rxBuf = s.blk.rxBuf ++ [x] := by
  rcases iterateAt_cases e s with ⟨-, h⟩ | ⟨-, b, h, ⟨-, rfl⟩ | ⟨-, rfl⟩ | ⟨-, rfl⟩ | ⟨x, -, -, rfl⟩⟩ <;> rw [h]
  · exact .inl rfl
  · exact .inl rfl
  · exact .inl rfl
  · exact .inr ⟨delim, rfl⟩
  · exact .inr ⟨x, rfl⟩

theorem exchangeTurn_rxBuf {x : Exchange} {s t : State} (h : exchangeTurn x s = .next t) :
    t.blk.rxBuf = s.blk.rxBuf ∨ (t.blk.rxState = .reading ∧ t.blk.rxBuf = []) := by
  rcases exchangeTurn_next h with
    ⟨-, rfl⟩ | ⟨-, f, -, rfl⟩ | ⟨-, rfl⟩ | ⟨-, rfl⟩ | ⟨-, -, rfl⟩ | ⟨-, r, -, rfl⟩
  · rw [onStatus_blk, enc_blk]; exact .inl rfl
  · rw [(sendPhase_cases x f s).1]; exact .inl rfl
  · exact .inr ⟨rfl, rfl⟩
  · rw [onStatus_blk]; exact .inl rfl
  · rw [onStatus_blk, dec_blk]; exact .inl rfl
  · rw [(conclude_frame x r s).1]; exact .inl rfl

/-- The ways a step other than the reset event changes `RX_BUF` (R28). -/
def RxBufStep (b c : Block) : Prop :=
  c.rxBuf = b.rxBuf ∨ (b.rxState = .reading ∧ ∃ x, c.rxBuf = b.rxBuf ++ [x])
  ∨ (b.rxState ≠ .reading ∧ c.rxState = .reading ∧ c.rxBuf = [])

theorem turn_rxBuf {s t : State} (h : turn s = .next t) : RxBufStep s.blk t.blk := by
  rcases turn_next h with ⟨hr, h⟩ | ⟨hr, x, -, h⟩ | ⟨-, -, rfl⟩
  · obtain ⟨-, rfl⟩ := iterate_next.1 h
    have hbuf := iterateAt_rxBuf (elapsed s).1 (elapsed s).2
    rw [elapsed_blk] at hbuf
    exact hbuf.imp_right fun hx => .inl ⟨hr, hx⟩
  · exact (exchangeTurn_rxBuf h).imp_right fun hx => .inr ⟨hr, hx⟩
  · exact .inl rfl

theorem Inv.rxBuf_of_exec {i : Instr} {s t : State} (hi : Inv s) (h : exec i s = .next t) :
    RxBufStep s.blk t.blk :=
  (exec_rxBuf h).imp_right fun ⟨hb, hx⟩ => .inr ⟨hi.block.not_reading (.inl hb), hx⟩

/-- Settles O28: the lines of the script one by one. -/
theorem rxBufIsAppendOnly : Obligations.RxBufIsAppendOnly := by
  intro s t hi h
  suffices hs : RxBufStep s.blk t.blk ∨ (t.blk.rxBuf = [] ∧ ∃ rest, s.host.script = .act .reset :: rest) by
    simpa only [RxBufStep, or_assoc] using hs
  rcases step_next h with ⟨_, _, i, -, -, h⟩ | ⟨_, -, h⟩ | ⟨_, _, _, _, _, _, -, h⟩ | ⟨a, rest, hl, h⟩ | ⟨-, h⟩ | ⟨-, h⟩
    | ⟨-, rfl⟩
  · have hx := (hi.of_fetched i).rxBuf_of_exec h
    rw [(fetched_frame i s).1] at hx
    exact .inl hx
  · exact .inl (hi.of_popScript.rxBuf_of_exec h)
  · exact .inl (hi.of_popScript.rxBuf_of_exec h)
  · rcases hostAct_next h with ⟨v, -, rfl⟩ | ⟨v, -, rfl⟩ | ⟨v, -, rfl⟩ | ⟨n, -, rfl⟩ | ⟨c, more, r, -, -, -, -, rfl⟩
      | ⟨r, v, -, -, rfl⟩ | ⟨bytes, -, rfl⟩ | ⟨rfl, rfl⟩
    case inr.inr.inr.inr.inr.inr.inr => exact .inr ⟨rfl, rest, hl⟩
    all_goals exact .inl (.inl rfl)
  · exact .inl (turn_rxBuf h)
  · exact .inl (turn_rxBuf (s := popScript s) h)
  · exact .inl (.inl rfl)

end Sys2Proof.Machine
end

section
/-! PROOF. A receive does not see the operand registers (O29), and the pending input is carried (O30). -/

namespace Sys2Proof.Machine

/-! ### The channel does not see the registers -/

section
variable (f : Block → Block) (s : State)

theorem drawRead_mapBlock : drawRead (s.mapBlock f) = ((drawRead s).1, (drawRead s).2.mapBlock f) := by
  unfold drawRead
  rw [State.mapBlock_chan]
  cases s.chan.answers <;> rfl

theorem settleStream_mapBlock : settleStream (s.mapBlock f) = (settleStream s).mapBlock f := by
  unfold settleStream
  rw [State.mapBlock_chan]
  cases s.chan.suspect <;> rfl

theorem readStream_mapBlock (d : ReadDraw) :
    readStream d (s.mapBlock f) = ((readStream d s).1, (readStream d s).2.mapBlock f) := by
  cases d with
  | error => rfl
  | noByte => rfl
  | next arrivals =>
    simp only [readStream, State.mapBlock_chan]
    cases s.chan.pending ++ arrivals <;> rfl

/-- What a read gives and does to the channel is the same whatever the registers hold. -/
theorem chanRead_mapBlock : chanRead (s.mapBlock f) = ((chanRead s).1, (chanRead s).2.mapBlock f) := by
  simp only [chanRead, drawRead_mapBlock, settleStream_mapBlock, readStream_mapBlock]

/-- The time source sees `RX_LASTE` alone. -/
theorem elapsed_mapBlock (h : (f s.blk).rxLastE = s.blk.rxLastE) :
    elapsed (s.mapBlock f) = ((elapsed s).1, (elapsed s).2.mapBlock f) := by
  unfold elapsed
  rw [State.mapBlock_chan, State.mapBlock_blk, h]
  cases s.chan.clock <;> rfl

end

/-! ### An iteration on other operands (O29) -/

/-- The registers with other operands. -/
def Block.withOperands (bid cmd dat : List Byte) (tmo : Nat) (b : Block) : Block :=
  { b with aBid := bid, aCmd := cmd, aDat := dat, aTmo := tmo }

section
variable (bid cmd dat : List Byte) (tmo : Nat) (s : State)

theorem afterRead_withOperands (r : ReadOutcome) :
    afterRead r (s.mapBlock (Block.withOperands bid cmd dat tmo))
      = (afterRead r s).mapBlock (Block.withOperands bid cmd dat tmo) := by
  cases r with
  | error => rfl
  | noByte => rfl
  | byte x =>
    simp only [afterRead, receiveByte]
    split <;> rfl

theorem iterateAt_withOperands (e : Nat) :
    iterateAt e (s.mapBlock (Block.withOperands bid cmd dat tmo))
      = (iterateAt e s).mapBlock (Block.withOperands bid cmd dat tmo) := by
  rcases Nat.lt_or_ge e s.blk.rxTmo with h | h
  · have hcomm : (s.mapBlock (Block.withOperands bid cmd dat tmo)).mapBlock (Block.sampleTime e)
        = (s.mapBlock (Block.sampleTime e)).mapBlock (Block.withOperands bid cmd dat tmo) := rfl
    rw [iterateAt_read h, iterateAt_read (by exact h), hcomm, chanRead_mapBlock, afterRead_withOperands]
  · rw [iterateAt_timeout h, iterateAt_timeout (by exact h)]
    rfl

end

theorem iterate_fault {s : State} {r : Fault} :
    iterate s = .fault r ↔ (elapsed s).1 < s.blk.rxLastE ∧ r = .elapsedDecreased := by
  unfold iterate
  split <;> simp [*, eq_comm]

/-- Settles O29: the sample and the iteration commute with a change of the operands. -/
theorem operandsDoNotDisturbAReceive : Obligations.OperandsDoNotDisturbAReceive := by
  intro s bid cmd dat tmo put
  have helapsed : elapsed (put s) = ((elapsed s).1, put (elapsed s).2) :=
    elapsed_mapBlock (Block.withOperands bid cmd dat tmo) s rfl
  refine ⟨fun t h => ?_, fun r h => ?_⟩
  · obtain ⟨hl, rfl⟩ := iterate_next.1 h
    refine iterate_next.2 ?_
    rw [helapsed]
    exact ⟨hl, (iterateAt_withOperands bid cmd dat tmo _ _).symm⟩
  · obtain ⟨hl, rfl⟩ := iterate_fault.1 h
    refine iterate_fault.2 ⟨?_, rfl⟩
    rw [helapsed]
    exact hl

/-! ### The pending input (O30) -/

/-- Arrivals join the end of the pending input, and at most its first byte goes, to the end of `RX_BUF`. -/
def Carried (s t : State) : Prop :=
  ∃ arrivals, t.chan.pending = s.chan.pending ++ arrivals
    ∨ ∃ b, s.chan.pending ++ arrivals = b :: t.chan.pending ∧ t.blk.rxBuf = s.blk.rxBuf ++ [b]

theorem carried_of_pending_eq {s t : State} (h : t.chan.pending = s.chan.pending) : Carried s t :=
  ⟨[], .inl (by rw [h, List.append_nil])⟩

theorem afterRead_chan (r : ReadOutcome) (s : State) : (afterRead r s).chan = s.chan := by
  obtain ⟨b, h, -⟩ := afterRead_cases r s
  rw [h]

theorem afterRead_byte_rxBuf (x : Byte) (s : State) :
    (afterRead (.byte x) s).blk.rxBuf = s.blk.rxBuf ++ [x] := by
  simp only [afterRead, receiveByte]
  split <;> rfl

/-- An iteration hands the byte its read takes from the stream to `RX_BUF`. -/
theorem iterateAt_carried {s : State} (hs : s.chan.suspect = false) (e : Nat) : Carried s (iterateAt e s) := by
  rcases Nat.lt_or_ge e s.blk.rxTmo with h | h
  · rw [iterateAt_read h]
    have hread := chanRead_stream (s := s.mapBlock (Block.sampleTime e)) hs
    rcases hread with ⟨b, arrivals, hr, hp, -⟩ | ⟨-, hp, -⟩ | ⟨-, hp, -⟩
    · refine ⟨arrivals, .inr ⟨b, ?_, ?_⟩⟩
      · rw [afterRead_chan]; exact hp
      · rw [hr, afterRead_byte_rxBuf, chanRead_blk]; rfl
    · exact carried_of_pending_eq (by rw [afterRead_chan]; exact hp)
    · exact carried_of_pending_eq (by rw [afterRead_chan]; exact hp)
  · rw [iterateAt_timeout h]
    exact carried_of_pending_eq rfl

/-- An instruction takes no pending input; an `IN20` word joins it. -/
theorem exec_carried {i : Instr} {s t : State} (h : exec i s = .next t) : Carried s t := by
  cases i with
  | enc => obtain ⟨-, -, rfl⟩ := exec_enc_next.1 h; exact carried_of_pending_eq (by rw [enc_chan])
  | rcv => obtain ⟨-, -, rfl⟩ := exec_rcv_next.1 h; exact carried_of_pending_eq rfl
  | dec => obtain ⟨-, -, -, rfl⟩ := exec_dec_next.1 h; exact carried_of_pending_eq (by rw [dec_chan])
  | reserved => rw [exec_reserved] at h; cases h
  | send => obtain ⟨-, -, f, -, rfl⟩ := exec_send_next.1 h; exact carried_of_pending_eq (transmit_spec f s).2.1
  | out18 => obtain ⟨-, -, rfl⟩ := exec_out18_next.1 h; exact carried_of_pending_eq (transmit_spec _ s).2.1
  | in20 => obtain rfl := exec_in20_next.1 h; exact ⟨_, .inl rfl⟩
  | exec => obtain ⟨-, -, rfl⟩ := exec_exec_next.1 h; exact carried_of_pending_eq rfl

/-- A phase of an exchange does not touch the inbound stream. -/
theorem exchangeTurn_pending {x : Exchange} {s t : State} (h : exchangeTurn x s = .next t) :
    t.chan.pending = s.chan.pending := by
  rcases exchangeTurn_next h with
    ⟨-, rfl⟩ | ⟨-, f, -, rfl⟩ | ⟨-, rfl⟩ | ⟨-, rfl⟩ | ⟨-, -, rfl⟩ | ⟨-, r, -, rfl⟩
  · rw [onStatus_chan, enc_chan, issue_chan]
  · rw [(sendPhase_cases x f s).2.1, (chanWrite_spec f s).2.2.1]
  · rfl
  · rw [onStatus_chan]
  · rw [onStatus_chan, dec_chan, issue_chan]
  · rw [(conclude_frame x r s).2.1]

theorem turn_carried {s t : State} (hs : s.chan.suspect = false) (h : turn s = .next t) : Carried s t := by
  rcases turn_next h with ⟨-, h⟩ | ⟨-, x, -, h⟩ | ⟨-, -, rfl⟩
  · obtain ⟨-, rfl⟩ := iterate_next.1 h
    obtain ⟨-, -, hp, -, -, hsus, -⟩ := elapsed_frame s
    have hc := iterateAt_carried (hsus.trans hs) (elapsed s).1
    rwa [Carried, hp, elapsed_blk] at hc
  · exact carried_of_pending_eq (exchangeTurn_pending h)
  · exact carried_of_pending_eq rfl

theorem hostAct_carried {a : HostAct} {s t : State} (h : hostAct a s = .next t) : Carried s t := by
  rcases hostAct_next h with ⟨v, -, rfl⟩ | ⟨v, -, rfl⟩ | ⟨v, -, rfl⟩ | ⟨n, -, rfl⟩ | ⟨c, more, r, -, -, -, -, rfl⟩
    | ⟨r, v, -, -, rfl⟩ | ⟨bytes, -, rfl⟩ | ⟨-, rfl⟩
  case inr.inr.inr.inr.inr.inr.inl => exact ⟨bytes, .inl rfl⟩
  all_goals exact carried_of_pending_eq rfl

/-- Settles O30: only an iteration of `RCV` takes from the stream. -/
theorem pendingInputIsCarried : Obligations.PendingInputIsCarried := by
  intro s t hs h
  rcases step_next h with ⟨_, _, i, -, -, h⟩ | ⟨_, -, h⟩ | ⟨_, _, _, _, _, _, -, h⟩ | ⟨_, _, -, h⟩ | ⟨-, h⟩ | ⟨-, h⟩
    | ⟨-, rfl⟩
  · obtain ⟨hb, hc, -, -⟩ := fetched_frame i s
    have hcarried := exec_carried h
    rwa [Carried, hb, hc] at hcarried
  · exact exec_carried (s := popScript s) h
  · exact exec_carried (s := popScript s) h
  · exact hostAct_carried (s := popScript s) h
  · exact turn_carried hs h
  · exact turn_carried (s := popScript s) hs h
  · exact carried_of_pending_eq rfl

end Sys2Proof.Machine
end

section
/-! PROOF. Which steps write the operand registers and `TXBUF` (O52, O53). -/

namespace Sys2Proof.Machine

/-! ### The operand registers (O52) -/

/-- The operands of a request: `A_BID`, `A_CMD`, `A_DAT` (R21 to R23). -/
def Block.request (b : Block) : List Byte × List Byte × List Byte := (b.aBid, b.aCmd, b.aDat)

theorem Block.request_eq {b c : Block} :
    c.request = b.request ↔ c.aBid = b.aBid ∧ c.aCmd = b.aCmd ∧ c.aDat = b.aDat := by
  simp [Block.request]

/-- No instruction but `EXEC` writes an operand register, and `EXEC` does not write `A_TMO` at its start (R210). -/
theorem exec_operands {i : Instr} {s t : State} (h : exec i s = .next t) :
    (t.blk.request = s.blk.request ∨ ∃ bid cmd dat echo ed, i = .exec bid cmd dat echo ed)
    ∧ t.blk.aTmo = s.blk.aTmo := by
  cases i with
  | enc => obtain ⟨-, -, rfl⟩ := exec_enc_next.1 h; rw [enc_blk]; exact ⟨.inl rfl, rfl⟩
  | rcv => obtain ⟨-, -, rfl⟩ := exec_rcv_next.1 h; exact ⟨.inl rfl, rfl⟩
  | dec => obtain ⟨-, -, -, rfl⟩ := exec_dec_next.1 h; rw [dec_blk]; exact ⟨.inl rfl, rfl⟩
  | reserved => rw [exec_reserved] at h; cases h
  | send => obtain ⟨-, -, f, -, rfl⟩ := exec_send_next.1 h; rw [(transmit_spec f s).1]; exact ⟨.inl rfl, rfl⟩
  | out18 => obtain ⟨-, -, rfl⟩ := exec_out18_next.1 h; rw [(transmit_spec _ s).1]; exact ⟨.inl rfl, rfl⟩
  | in20 => obtain rfl := exec_in20_next.1 h; exact ⟨.inl rfl, rfl⟩
  | exec bid cmd dat echo ed =>
    obtain ⟨-, -, rfl⟩ := exec_exec_next.1 h
    exact ⟨.inr ⟨bid, cmd, dat, echo, ed, rfl⟩, rfl⟩

/-- Of an exchange only the phase that starts the receive writes an operand register, `A_TMO` (R210, R212). -/
theorem exchangeTurn_operands {x : Exchange} {s t : State} (h : exchangeTurn x s = .next t) :
    t.blk.request = s.blk.request ∧ (t.blk.aTmo = s.blk.aTmo ∨ x.phase = .receive) := by
  rcases exchangeTurn_next h with
    ⟨-, rfl⟩ | ⟨-, f, -, rfl⟩ | ⟨hp, rfl⟩ | ⟨-, rfl⟩ | ⟨-, -, rfl⟩ | ⟨-, r, -, rfl⟩
  · rw [onStatus_blk, enc_blk]; exact ⟨rfl, .inl rfl⟩
  · rw [(sendPhase_cases x f s).1]; exact ⟨rfl, .inl rfl⟩
  · exact ⟨rfl, .inr hp⟩
  · rw [onStatus_blk]; exact ⟨rfl, .inl rfl⟩
  · rw [onStatus_blk, dec_blk]; exact ⟨rfl, .inl rfl⟩
  · rw [(conclude_frame x r s).1]; exact ⟨rfl, .inl rfl⟩

theorem turn_operands {s t : State} (h : turn s = .next t) :
    t.blk.request = s.blk.request
    ∧ (t.blk.aTmo = s.blk.aTmo ∨ ∃ x, s.host.exchange = some x ∧ x.phase = .receive) := by
  rcases turn_next h with ⟨-, h⟩ | ⟨-, x, hx, h⟩ | ⟨-, -, rfl⟩
  · obtain ⟨-, rfl⟩ := iterate_next.1 h
    rw [iterateAt_blk, elapsed_blk]
    exact ⟨rfl, .inl rfl⟩
  · exact (exchangeTurn_operands h).imp_right (Or.imp_right fun hp => ⟨x, hx, hp⟩)
  · exact ⟨rfl, .inl rfl⟩

theorem hostAct_operands {a : HostAct} {s t : State} (h : hostAct a s = .next t) :
    (t.blk.request = s.blk.request ∨ (∃ v, a = .setBid v ∨ a = .setCmd v ∨ a = .setDat v) ∨ a = .reset)
    ∧ (t.blk.aTmo = s.blk.aTmo ∨ (∃ n, a = .setTmo n) ∨ a = .reset) := by
  rcases hostAct_next h with ⟨v, rfl, rfl⟩ | ⟨v, rfl, rfl⟩ | ⟨v, rfl, rfl⟩ | ⟨n, rfl, rfl⟩
    | ⟨c, more, r, -, -, -, -, rfl⟩ | ⟨r, v, -, -, rfl⟩ | ⟨bytes, -, rfl⟩ | ⟨rfl, rfl⟩
  · exact ⟨.inr (.inl ⟨v, .inl rfl⟩), .inl rfl⟩
  · exact ⟨.inr (.inl ⟨v, .inr (.inl rfl)⟩), .inl rfl⟩
  · exact ⟨.inr (.inl ⟨v, .inr (.inr rfl)⟩), .inl rfl⟩
  · exact ⟨.inl rfl, .inr (.inl ⟨n, rfl⟩)⟩
  · exact ⟨.inl rfl, .inl rfl⟩
  · exact ⟨.inl rfl, .inl rfl⟩
  · exact ⟨.inl rfl, .inl rfl⟩
  · exact ⟨.inr (.inr rfl), .inr (.inr rfl)⟩

/-- The lines that write the operands of a request. -/
def WritesRequest (m : Move) : Prop :=
  (∃ v, m = .act (.setBid v) ∨ m = .act (.setCmd v) ∨ m = .act (.setDat v))
  ∨ (∃ bid cmd dat echo ed, m = .exec bid cmd dat echo ed) ∨ m = .act .reset

/-- The lines that write `A_TMO`. -/
def WritesTimeout (m : Move) : Prop := (∃ n, m = .act (.setTmo n)) ∨ m = .act .reset

/-- A step leaves the operand registers, or a line that writes them is at the head of the script; or an exchange starts
its receive. -/
theorem step_operands {s t : State} (h : step s = .next t) :
    (t.blk.request = s.blk.request ∨ ∃ m rest, s.host.script = m :: rest ∧ WritesRequest m)
    ∧ (t.blk.aTmo = s.blk.aTmo ∨ (∃ m rest, s.host.script = m :: rest ∧ WritesTimeout m)
      ∨ ∃ x, s.host.exchange = some x ∧ x.phase = .receive) := by
  rcases step_next h with ⟨_, _, i, -, hd, h⟩ | ⟨_, -, h⟩ | ⟨bid, cmd, dat, echo, ed, rest, hl, h⟩ | ⟨a, rest, hl, h⟩
    | ⟨-, h⟩ | ⟨-, h⟩ | ⟨-, rfl⟩
  · obtain ⟨hq | ⟨bid, cmd, dat, echo, ed, hi⟩, htmo⟩ := exec_operands h
    · rw [(fetched_frame i s).1] at hq htmo
      exact ⟨.inl hq, .inl htmo⟩
    · exact absurd hi ((decode_ne_hostStep hd).2 bid cmd dat echo ed)
  · obtain ⟨hq | ⟨_, _, _, _, _, hi⟩, htmo⟩ := exec_operands h
    · exact ⟨.inl hq, .inl htmo⟩
    · cases hi
  · exact ⟨.inr ⟨_, rest, hl, .inr (.inl ⟨bid, cmd, dat, echo, ed, rfl⟩)⟩, .inl (exec_operands h).2⟩
  · obtain ⟨hq, htmo⟩ := hostAct_operands (s := popScript s) h
    refine ⟨hq.imp_right fun ha => ⟨_, rest, hl, ?_⟩, htmo.imp_right fun ha => .inl ⟨_, rest, hl, ?_⟩⟩
    · rcases ha with ⟨v, rfl | rfl | rfl⟩ | rfl <;> simp [WritesRequest]
    · rcases ha with ⟨n, rfl⟩ | rfl <;> simp [WritesTimeout]
  · obtain ⟨hq, htmo⟩ := turn_operands h
    exact ⟨.inl hq, htmo.imp_right .inr⟩
  · obtain ⟨hq, htmo⟩ := turn_operands (s := popScript s) h
    exact ⟨.inl hq, htmo.imp_right .inr⟩
  · exact ⟨.inl rfl, .inl rfl⟩

/-- Settles O52: a register that changed leaves only the lines that write it. -/
theorem blockNeverWritesOperands : Obligations.BlockNeverWritesOperands := by
  intro s t h
  obtain ⟨hq, htmo⟩ := step_operands h
  refine ⟨fun hne => ?_, fun hne => ?_⟩
  · rcases hq with hq | ⟨m, rest, hl, hm⟩
    · obtain ⟨hb, hc, hd⟩ := Block.request_eq.1 hq
      simp [hb, hc, hd] at hne
    · refine ⟨rest, ?_⟩
      rcases hm with ⟨v, rfl | rfl | rfl⟩ | ⟨bid, cmd, dat, echo, ed, rfl⟩ | rfl <;> simp [hl]
  · rcases htmo with htmo | ⟨m, rest, hl, hm⟩ | hx
    · exact absurd htmo hne
    · refine .inl ⟨rest, ?_⟩
      rcases hm with ⟨n, rfl⟩ | rfl <;> simp [hl]
    · exact .inr hx

/-! ### `TXBUF` (O53) -/

/-- What `TXBUF` and `TXV` hold is as it was. -/
def SameFrame (b c : Block) : Prop := c.txbuf = b.txbuf ∧ c.txv = b.txv

/-- `TXBUF` holds the frame of the operands, or none where they have none. -/
def FrameOfOperands (b c : Block) : Prop :=
  (∃ f, encodeFrame b.aBid b.aCmd b.aDat = .ok f ∧ c.txbuf = some f ∧ c.txv = true)
  ∨ ∃ e, encodeFrame b.aBid b.aCmd b.aDat = .error e ∧ c.txbuf = none ∧ c.txv = false

/-- `ENC` issued under some `OP` puts the frame of the operands into `TXBUF`. -/
theorem enc_frameOfOperands {s : State} {b : Block} (hb : s.blk = { b with op := s.blk.op }) :
    FrameOfOperands b (enc s).blk := by
  have h := enc_txbuf s
  rw [hb] at h
  exact h

/-- An exchange writes `TXBUF` in the phase that issues its `ENC` only. -/
theorem exchangeTurn_txbuf {x : Exchange} {s t : State} (h : exchangeTurn x s = .next t) :
    SameFrame s.blk t.blk ∨ (x.phase = .encode ∧ FrameOfOperands s.blk t.blk) := by
  rcases exchangeTurn_next h with
    ⟨hp, rfl⟩ | ⟨-, f, -, rfl⟩ | ⟨-, rfl⟩ | ⟨-, rfl⟩ | ⟨-, -, rfl⟩ | ⟨-, r, -, rfl⟩
  · rw [onStatus_blk]
    exact .inr ⟨hp, enc_frameOfOperands (issue_frame .enc s).2.2.2⟩
  · rw [(sendPhase_cases x f s).1]; exact .inl ⟨rfl, rfl⟩
  · exact .inl ⟨rfl, rfl⟩
  · rw [onStatus_blk]; exact .inl ⟨rfl, rfl⟩
  · rw [onStatus_blk, dec_blk]; exact .inl ⟨rfl, rfl⟩
  · rw [(conclude_frame x r s).1]; exact .inl ⟨rfl, rfl⟩

/-- The turn that issues the `ENC` of an exchange. -/
def EncodeTurn (s : State) : Prop :=
  s.blk.rxState ≠ .reading ∧ ∃ x, s.host.exchange = some x ∧ x.phase = .encode

theorem turn_txbuf {s t : State} (h : turn s = .next t) :
    SameFrame s.blk t.blk ∨ (EncodeTurn s ∧ FrameOfOperands s.blk t.blk) := by
  rcases turn_next h with ⟨-, h⟩ | ⟨hr, x, hx, h⟩ | ⟨-, -, rfl⟩
  · obtain ⟨-, rfl⟩ := iterate_next.1 h
    rw [iterateAt_blk, elapsed_blk]
    exact .inl ⟨rfl, rfl⟩
  · exact (exchangeTurn_txbuf h).imp_right fun ⟨hp, hf⟩ => ⟨⟨hr, x, hx, hp⟩, hf⟩
  · exact .inl ⟨rfl, rfl⟩

theorem hostAct_txbuf {a : HostAct} {s t : State} (h : hostAct a s = .next t) :
    SameFrame s.blk t.blk ∨ (a = .reset ∧ t.blk.txbuf = none ∧ t.blk.txv = false) := by
  rcases hostAct_next h with ⟨v, -, rfl⟩ | ⟨v, -, rfl⟩ | ⟨v, -, rfl⟩ | ⟨n, -, rfl⟩ | ⟨c, more, r, -, -, -, -, rfl⟩
    | ⟨r, v, -, -, rfl⟩ | ⟨bytes, -, rfl⟩ | ⟨rfl, rfl⟩
  case inr.inr.inr.inr.inr.inr.inr => exact .inr ⟨rfl, rfl, rfl⟩
  all_goals exact .inl ⟨rfl, rfl⟩

/-- Settles O53: the `ENC` of a word, the `ENC` of an exchange and the reset event write `TXBUF`, every other line
leaves it. -/
theorem frameChangesOnlyByEncode : Obligations.FrameChangesOnlyByEncode := by
  intro s t h
  rcases step_next h with ⟨bytes, rest, i, hl, hd, h⟩ | ⟨_, -, h⟩ | ⟨_, _, _, _, _, _, -, h⟩ | ⟨a, rest, hl, h⟩
    | ⟨hl, h⟩ | ⟨⟨rest, hl⟩, h⟩ | ⟨-, rfl⟩
  · by_cases hi : i = .enc
    · subst hi
      obtain ⟨-, -, rfl⟩ := exec_enc_next.1 h
      exact .inr (.inl ⟨.inl ⟨bytes, rest, hl, hd⟩, enc_frameOfOperands (by rw [(fetched_frame .enc s).1])⟩)
    · have hx := exec_txbuf hi h
      rw [(fetched_frame i s).1] at hx
      exact .inl hx
  · exact .inl (exec_txbuf (s := popScript s) (by simp) h)
  · exact .inl (exec_txbuf (s := popScript s) (by simp) h)
  · rcases hostAct_txbuf (s := popScript s) h with hx | ⟨rfl, hx⟩
    · exact .inl hx
    · exact .inr (.inr ⟨⟨rest, hl⟩, hx⟩)
  · rcases turn_txbuf h with hx | ⟨hturn, hx⟩
    · exact .inl hx
    · exact .inr (.inl ⟨.inr ⟨hl.imp_right fun ⟨rest, hw⟩ => ⟨rest, .inr hw⟩, hturn⟩, hx⟩)
  · rcases turn_txbuf (s := popScript s) h with hx | ⟨hturn, hx⟩
    · exact .inl hx
    · exact .inr (.inl ⟨.inr ⟨.inr ⟨rest, .inl hl⟩, hturn⟩, hx⟩)
  · exact .inl ⟨rfl, rfl⟩

end Sys2Proof.Machine
end

section
/-! PROOF. The lines of the world outside the block: the peer's bytes, `SET`, a read and the reset event (O19, O50, O55,
O56). -/

namespace Sys2Proof.Machine

/-- Settles O19: the line of the peer. -/
theorem peerBytesArrive : Obligations.PeerBytesArrive := by
  intro s bytes rest hl
  rw [step_act hl, popScript_cons hl]
  rfl

/-- Settles O50: one clause per operand register. -/
theorem setWritesOneRegister : Obligations.SetWritesOneRegister := by
  intro s rest v n
  refine ⟨fun hl => ?_, fun hl => ?_, fun hl => ?_, fun hl => ?_⟩ <;> rw [step_act hl, popScript_cons hl] <;> rfl

/-! ### Reads -/

section
variable {s : State} {rest : List Move} {r : HostReg} (hl : s.host.script = .act (.read r) :: rest)
include hl

/-- A read of a register that holds a value keeps the value, and changes nothing but the script. -/
theorem step_read_of_some {v : RegValue} (h : hostRead r s.blk = some v) :
    step s = .next { s with host := { s.host with script := rest, seen := some v } } := by
  rw [step_act hl, popScript_cons hl]
  simp only [hostAct, h]

/-- A read of a register that holds no value is refused. -/
theorem step_read_of_none (h : hostRead r s.blk = none) : step s = .refused .notObservable := by
  rw [step_act hl, popScript_cons hl]
  simp only [hostAct, h]

end

theorem Block.frame?_of_invalid {b : Block} (h : b.txv = false) : b.frame? = none := by simp [Block.frame?, h]

theorem Block.frame?_of_valid {b : Block} {f : List Byte} (hv : b.txv = true) (hf : b.txbuf = some f) :
    b.frame? = some f := by simp [Block.frame?, hv, hf]

theorem Block.response?_of_invalid {b : Block} (h : b.rv = false) : b.response? = none := by
  simp [Block.response?, h]

theorem Block.response?_of_valid {b : Block} {p : Response} (hv : b.rv = true) (hp : b.resp = some p) :
    b.response? = some p := by simp [Block.response?, hv, hp]

/-- Settles O55: one clause per register. -/
theorem readsGiveTheRegister : Obligations.ReadsGiveTheRegister := by
  intro s rest r hl gives
  have hgives : ∀ {v}, hostRead r s.blk = some v → gives v := step_read_of_some hl
  refine ⟨fun hv hr => step_read_of_none hl ?frameAbsent, fun hv hr => step_read_of_none hl ?responseAbsent,
    fun hr => hgives ?_, fun hr => hgives ?_, fun hr => hgives ?_, fun f hv hf hr => hgives ?frame,
    fun hr => hgives ?_, fun hr => hgives ?_, fun hr => hgives ?_, fun p hv hp => ?response,
    fun hr => hgives ?_, fun hr => hgives ?_, fun hr => hgives ?_, fun hr => hgives ?_⟩
  case frameAbsent => rw [hr, hostRead, Block.frame?_of_invalid hv]; rfl
  case responseAbsent =>
    rcases hr with rfl | rfl | rfl | rfl <;> rw [hostRead, Block.response?_of_invalid hv] <;> rfl
  case frame => rw [hr, hostRead, Block.frame?_of_valid hv hf]; rfl
  case response =>
    have hresp := Block.response?_of_valid hv hp
    refine ⟨fun hr => hgives ?_, fun hr => hgives ?_, fun hr => hgives ?_, fun hr => hgives ?_⟩ <;>
      rw [hr, hostRead, hresp] <;> rfl
  all_goals rw [hr]; rfl

/-- Settles O56: the fields of `Block.reset`, and the line of the reset event. -/
theorem resetValues : Obligations.ResetValues := by
  refine ⟨fun n => ⟨rfl, rfl, rfl, rfl, rfl, rfl, rfl, rfl, rfl⟩, rfl, fun s rest hl => ?_⟩
  refine ⟨resetEvent (popScript s), step_act hl, ⟨s.free, rfl⟩, rfl, ?_⟩
  rw [popScript_cons hl]
  rfl

end Sys2Proof.Machine
end

section
/-! PROOF. What goes out to the peer (O54). -/

namespace Sys2Proof.Machine

/-! ### A word read off its bytes -/

/-- A word from an index on begins with the byte there. -/
theorem drop_eq_byteAt_cons {w : List Byte} {i : Nat} (h : i < w.length) :
    w.drop i = byteAt w i :: w.drop (i + 1) := by
  rw [List.drop_eq_getElem_cons h, byteAt, List.getD_eq_getElem w 0 h]

/-- A word from an index on begins with any slice from there. -/
theorem drop_eq_slice_append (w : List Byte) {a b : Nat} (h : a ≤ b) : w.drop a = slice w a b ++ w.drop b := by
  conv_lhs => rw [← List.take_append_drop (b - a) (w.drop a), List.drop_drop, Nat.add_sub_cancel' h]
  rfl

/-- A decoded `OUT18` word is a word of 18 bytes with the separators and the delimiter of R83. -/
theorem decode_out18 {w c d : List Byte} {b h l : Byte} (hd : decode w = .ok (.out18 b c d h l)) :
    w.length = outLen ∧ byteAt w 1 = sep ∧ byteAt w 5 = sep ∧ byteAt w 14 = sep ∧ byteAt w 17 = delim
      ∧ b = byteAt w 0 ∧ c = slice w 2 5 ∧ d = slice w 6 14 ∧ h = byteAt w 15 ∧ l = byteAt w 16 := by
  unfold decode decodeOp decodeOut18 decodeIn20 at hd
  split_ifs at hd <;> cases hd
  simp_all

/-- The bytes of a decoded `OUT18` frame are the word's own (R83). -/
theorem out18_bytes_of_decode {w c d : List Byte} {b h l : Byte} (hd : decode w = .ok (.out18 b c d h l)) :
    [b, sep] ++ c ++ [sep] ++ d ++ [sep, h, l, delim] = w := by
  obtain ⟨hlen, h1, h5, h14, h17, rfl, rfl, rfl, rfl, rfl⟩ := decode_out18 hd
  have hbyte : ∀ i < 18, w.drop i = byteAt w i :: w.drop (i + 1) :=
    fun i hi => drop_eq_byteAt_cons (hlen.symm ▸ hi)
  have hend : w.drop 18 = [] := List.drop_of_length_le hlen.le
  have hword : w.drop 0 = byteAt w 0 :: byteAt w 1 :: (slice w 2 5 ++ byteAt w 5 :: (slice w 6 14
      ++ [byteAt w 14, byteAt w 15, byteAt w 16, byteAt w 17])) := by
    rw [hbyte 0 (by decide), hbyte 1 (by decide), drop_eq_slice_append w (show 2 ≤ 5 by decide), hbyte 5 (by decide),
      drop_eq_slice_append w (show 6 ≤ 14 by decide), hbyte 14 (by decide), hbyte 15 (by decide),
      hbyte 16 (by decide), hbyte 17 (by decide), hend]
  rw [h1, h5, h14, h17, List.drop_zero] at hword
  simpa using hword.symm

/-! ### What an operation adds to the bytes that have gone out -/

/-- A prefix of `f`, at most all of it, has gone out (R151, U10). -/
def SendsPrefix (f : List Byte) (s t : State) : Prop := ∃ n, t.chan.sent = s.chan.sent ++ f.take n

/-- Nothing has gone out, or a prefix of the frame that `TXBUF` holds (R61). -/
def SendsFrame (s t : State) : Prop :=
  t.chan.sent = s.chan.sent ∨ ∃ f, memRead .txbuf 0 outLen s.blk = some f ∧ SendsPrefix f s t

theorem sendsPrefix_all {f : List Byte} {s t : State} (h : t.chan.sent = s.chan.sent ++ f) : SendsPrefix f s t :=
  ⟨f.length, by rw [List.take_length, h]⟩

theorem chanWrite_sendsPrefix (f : List Byte) (s : State) : SendsPrefix f s (chanWrite f s).2 := by
  obtain ⟨-, -, -, -, -, ⟨-, hs, -⟩ | ⟨-, -, hs⟩⟩ := chanWrite_spec f s
  · exact sendsPrefix_all hs
  · exact hs

theorem transmit_sendsPrefix (f : List Byte) (s : State) : SendsPrefix f s (transmit f s) := by
  obtain ⟨-, -, -, -, -, ⟨-, hs, -⟩ | ⟨-, hs, -⟩, -⟩ := transmit_spec f s
  · exact sendsPrefix_all hs
  · exact hs

theorem iterateAt_sent (e : Nat) (s : State) : (iterateAt e s).chan.sent = s.chan.sent := by
  rcases iterateAt_cases e s with ⟨-, h⟩ | ⟨-, b, h, -⟩ <;> rw [h]
  obtain ⟨-, -, -, -, hs⟩ := chanRead_frame (s.mapBlock (Block.sampleTime e))
  exact hs

/-- Of an exchange only the phase `send` writes to the channel, and it writes the frame of `TXBUF` (R210). -/
theorem exchangeTurn_sent {x : Exchange} {s t : State} (h : exchangeTurn x s = .next t) : SendsFrame s t := by
  rcases exchangeTurn_next h with
    ⟨-, rfl⟩ | ⟨-, f, hf, rfl⟩ | ⟨-, rfl⟩ | ⟨-, rfl⟩ | ⟨-, -, rfl⟩ | ⟨-, r, -, rfl⟩
  · left; rw [onStatus_chan, enc_chan, issue_chan]
  · refine .inr ⟨f, hf, ?_⟩
    rw [SendsPrefix, (sendPhase_cases x f s).2.1]
    exact chanWrite_sendsPrefix f s
  · exact .inl rfl
  · left; rw [onStatus_chan]
  · left; rw [onStatus_chan, dec_chan, issue_chan]
  · left; rw [(conclude_frame x r s).2.1]

theorem turn_sent {s t : State} (h : turn s = .next t) : SendsFrame s t := by
  rcases turn_next h with ⟨-, h⟩ | ⟨-, x, -, h⟩ | ⟨-, -, rfl⟩
  · obtain ⟨-, rfl⟩ := iterate_next.1 h
    obtain ⟨-, -, -, -, -, -, hs, -⟩ := elapsed_frame s
    exact .inl ((iterateAt_sent _ _).trans hs)
  · exact exchangeTurn_sent h
  · exact .inl rfl

theorem hostAct_sent {a : HostAct} {s t : State} (h : hostAct a s = .next t) : t.chan.sent = s.chan.sent := by
  rcases hostAct_next h with ⟨v, -, rfl⟩ | ⟨v, -, rfl⟩ | ⟨v, -, rfl⟩ | ⟨n, -, rfl⟩ | ⟨c, more, r, -, -, -, -, rfl⟩
    | ⟨r, v, -, -, rfl⟩ | ⟨bytes, -, rfl⟩ | ⟨-, rfl⟩
  all_goals rfl

/-- Of the instructions `SEND` writes the frame of `TXBUF` and `OUT18` its own, and no other writes to the channel. -/
theorem exec_sent {i : Instr} {s t : State} (h : exec i s = .next t) :
    SendsFrame s t ∨ ∃ b c d h l, i = .out18 b c d h l
      ∧ SendsPrefix ([b, sep] ++ c ++ [sep] ++ d ++ [sep, h, l, delim]) s t := by
  cases i with
  | enc => obtain ⟨-, -, rfl⟩ := exec_enc_next.1 h; exact .inl (.inl (by rw [enc_chan]))
  | rcv => obtain ⟨-, -, rfl⟩ := exec_rcv_next.1 h; exact .inl (.inl rfl)
  | dec => obtain ⟨-, -, -, rfl⟩ := exec_dec_next.1 h; exact .inl (.inl (by rw [dec_chan]))
  | reserved => rw [exec_reserved] at h; cases h
  | send =>
    obtain ⟨-, -, f, hf, rfl⟩ := exec_send_next.1 h
    exact .inl (.inr ⟨f, hf, transmit_sendsPrefix f s⟩)
  | out18 b c d g l =>
    obtain ⟨-, -, rfl⟩ := exec_out18_next.1 h
    exact .inr ⟨b, c, d, g, l, rfl, transmit_sendsPrefix _ s⟩
  | in20 => obtain rfl := exec_in20_next.1 h; exact .inl (.inl rfl)
  | exec => obtain ⟨-, -, rfl⟩ := exec_exec_next.1 h; exact .inl (.inl rfl)

theorem exec_sendsFrame {i : Instr} {s t : State} (hi : ∀ b c d h l, i ≠ .out18 b c d h l)
    (h : exec i s = .next t) : SendsFrame s t :=
  (exec_sent h).resolve_right fun ⟨b, c, d, g, l, he, _⟩ => hi b c d g l he

/-- A step sends at most the frame of `TXBUF`, or it runs an `OUT18` word and sends at most its bytes. -/
theorem step_sent {s t : State} (h : step s = .next t) :
    SendsFrame s t ∨ ∃ bytes rest b c d h l, s.host.script = .word bytes :: rest
      ∧ decode bytes = .ok (.out18 b c d h l) ∧ SendsPrefix bytes s t := by
  rcases step_next h with ⟨bytes, rest, i, hl, hd, h⟩ | ⟨_, -, h⟩ | ⟨_, _, _, _, _, _, -, h⟩ | ⟨_, _, -, h⟩ | ⟨-, h⟩
    | ⟨-, h⟩ | ⟨-, rfl⟩
  · obtain ⟨hblk, hchan, -, -⟩ := fetched_frame i s
    rcases exec_sent h with hs | ⟨b, c, d, g, l, rfl, hs⟩
    · simp only [SendsFrame, SendsPrefix, hblk, hchan] at hs
      exact .inl hs
    · rw [out18_bytes_of_decode hd, SendsPrefix, hchan] at hs
      exact .inr ⟨bytes, rest, b, c, d, g, l, hl, hd, hs⟩
  · exact .inl (exec_sendsFrame (s := popScript s) (by simp) h)
  · exact .inl (exec_sendsFrame (s := popScript s) (by simp) h)
  · exact .inl (.inl (hostAct_sent (s := popScript s) h))
  · exact .inl (turn_sent h)
  · exact .inl (turn_sent (s := popScript s) h)
  · exact .inl (.inl rfl)

/-- Settles O54: a step that sends nothing sends a prefix of length 0. -/
theorem onlyFramesGoOut : Obligations.OnlyFramesGoOut := by
  intro s t h
  rcases step_sent h with (hs | ⟨f, hf, n, hs⟩) | ⟨bytes, rest, b, c, d, g, l, hl, hd, n, hs⟩
  · exact ⟨[], 0, by rw [hs, List.take_nil, List.append_nil], .inl rfl⟩
  · exact ⟨f, n, hs, .inr (.inl hf)⟩
  · exact ⟨bytes, n, hs, .inr (.inr ⟨bytes, rest, b, c, d, g, l, hl, hd, rfl⟩)⟩

end Sys2Proof.Machine
end

section
/-! PROOF. The decoder and the encoder undo each other (O1, O2), and words written out by hand (O3). -/

namespace Sys2Proof.Machine

/-! ### From an instruction to its word and back -/

/-- An `OUT18` word with fields of the lengths of R83 decodes to them, whatever its bytes are. -/
theorem decode_out18_bytes {c d : List Byte} (hc : c.length = 3) (hd : d.length = 8) (b h l : Byte) :
    decode ([b, sep] ++ c ++ [sep] ++ d ++ [sep, h, l, delim]) = .ok (.out18 b c d h l) := by
  obtain ⟨x, y, z, rfl⟩ := list_of_length_three hc
  obtain ⟨a0, a1, a2, a3, a4, a5, a6, a7, rfl⟩ := list_of_length_eight hd
  rfl

/-- An `IN20` word with fields of the lengths of R84 decodes to them, whatever its bytes are. -/
theorem decode_in20_bytes {c d : List Byte} (hc : c.length = 3) (hd : d.length = 8) (b s1 s2 s3 k s4 h l : Byte) :
    decode ([b, s1] ++ c ++ [s2] ++ d ++ [s3, k, s4, h, l, delim]) = .ok (.in20 b s1 c s2 d s3 k s4 h l) := by
  obtain ⟨x, y, z, rfl⟩ := list_of_length_three hc
  obtain ⟨a0, a1, a2, a3, a4, a5, a6, a7, rfl⟩ := list_of_length_eight hd
  rfl

theorem fieldLengths_of_wellFormed_out18 {b h l : Byte} {c d : List Byte}
    (hw : (Instr.out18 b c d h l).wellFormed = true) : c.length = 3 ∧ d.length = 8 := by
  simp only [Instr.wellFormed, Bool.and_eq_true, beq_iff_eq] at hw
  exact hw.1.1

theorem fieldLengths_of_wellFormed_in20 {b s1 s2 s3 k s4 h l : Byte} {c d : List Byte}
    (hw : (Instr.in20 b s1 c s2 d s3 k s4 h l).wellFormed = true) : c.length = 3 ∧ d.length = 8 := by
  simp only [Instr.wellFormed, Bool.and_eq_true, beq_iff_eq] at hw
  exact hw

/-- Settles O1: of a frame word only the lengths of the two fields matter. -/
theorem decodeOfEncode : Obligations.DecodeOfEncode := by
  intro i w hw he
  cases i <;> cases he
  case out18 b c d h l =>
    obtain ⟨hc, hd⟩ := fieldLengths_of_wellFormed_out18 hw
    exact decode_out18_bytes hc hd b h l
  case in20 b s1 c s2 d s3 k s4 h l =>
    obtain ⟨hc, hd⟩ := fieldLengths_of_wellFormed_in20 hw
    exact decode_in20_bytes hc hd b s1 s2 s3 k s4 h l
  all_goals rfl

/-! ### From a word to its instruction and back -/

/-- A decoded word has the length of one of the three formats, and that format's decoder read it (R82, R90). -/
theorem decode_ok_cases {w : List Byte} {i : Instr} (hd : decode w = .ok i) :
    (w.length = 1 ∧ decodeOp (byteAt w 0) = .ok i) ∨ (w.length = outLen ∧ decodeOut18 w = .ok i)
      ∨ (w.length = inLen ∧ decodeIn20 w = .ok i) := by
  unfold decode at hd
  split_ifs at hd with h1 h18 h20
  · exact .inl ⟨h1, hd⟩
  · exact .inr (.inl ⟨h18, hd⟩)
  · exact .inr (.inr ⟨h20, hd⟩)

theorem encode_of_decodeOp {b : Byte} {i : Instr} (hd : decodeOp b = .ok i) : encode i = some [b] := by
  unfold decodeOp at hd
  split_ifs at hd <;> cases hd
  all_goals subst b; rfl

/-- The `OUT18` decoder gives nothing but `OUT18` words. -/
theorem decodeOut18_ok {w : List Byte} {i : Instr} (hd : decodeOut18 w = .ok i) :
    ∃ b c d h l, i = .out18 b c d h l := by
  unfold decodeOut18 at hd
  split_ifs at hd
  cases hd
  exact ⟨_, _, _, _, _, rfl⟩

theorem decodeIn20_ok {w : List Byte} {i : Instr} (hd : decodeIn20 w = .ok i) :
    byteAt w 19 = delim ∧ i = .in20 (byteAt w 0) (byteAt w 1) (slice w 2 5) (byteAt w 5) (slice w 6 14) (byteAt w 14)
      (byteAt w 15) (byteAt w 16) (byteAt w 17) (byteAt w 18) := by
  unfold decodeIn20 at hd
  split_ifs at hd with hdelim
  cases hd
  exact ⟨not_not.1 hdelim, rfl⟩

/-- A word of 20 bytes is made of its bytes and its two fields (R84). -/
theorem word_eq_in20_fields {w : List Byte} (hlen : w.length = 20) :
    [byteAt w 0, byteAt w 1] ++ slice w 2 5 ++ [byteAt w 5] ++ slice w 6 14
      ++ [byteAt w 14, byteAt w 15, byteAt w 16, byteAt w 17, byteAt w 18, byteAt w 19] = w := by
  have hbyte : ∀ i < 20, w.drop i = byteAt w i :: w.drop (i + 1) :=
    fun i hi => drop_eq_byteAt_cons (hlen.symm ▸ hi)
  have hend : w.drop 20 = [] := List.drop_of_length_le hlen.le
  conv_rhs =>
    rw [← List.drop_zero (l := w), hbyte 0 (by decide), hbyte 1 (by decide),
      drop_eq_slice_append w (show 2 ≤ 5 by decide), hbyte 5 (by decide),
      drop_eq_slice_append w (show 6 ≤ 14 by decide), hbyte 14 (by decide), hbyte 15 (by decide),
      hbyte 16 (by decide), hbyte 17 (by decide), hbyte 18 (by decide), hbyte 19 (by decide), hend]
  simp

/-- Settles O2: format by format. -/
theorem encodeOfDecode : Obligations.EncodeOfDecode := by
  intro w i hd
  rcases decode_ok_cases hd with ⟨hlen, hop⟩ | ⟨-, hout⟩ | ⟨hlen, hin⟩
  · obtain ⟨b, rfl⟩ := List.length_eq_one_iff.1 hlen
    exact encode_of_decodeOp hop
  · obtain ⟨b, c, d, h, l, rfl⟩ := decodeOut18_ok hout
    exact congrArg some (out18_bytes_of_decode hd)
  · obtain ⟨hdelim, rfl⟩ := decodeIn20_ok hin
    rw [encode, ← hdelim, word_eq_in20_fields hlen]

/-- Settles O3: the operation codes by the decoder, the frame words as words with fields of the right lengths. -/
theorem wordsDecodeAsWritten : Obligations.WordsDecodeAsWritten :=
  ⟨rfl, rfl, rfl, rfl,
    decode_out18_bytes (c := [0x56, 0x45, 0x52]) (d := [0x31, 0x32, 0x33, 0x34, 0x35, 0x36, 0x37, 0x38]) rfl rfl
      0x31 0x42 0x36,
    decode_in20_bytes (c := [0x56, 0x45, 0x52]) (d := [0x30, 0x31, 0x41, 0x42, 0x43, 0x44, 0x31, 0x32]) rfl rfl
      0x31 0x3B 0x3C 0x3D 0x30 0x3E 0x46 0x33⟩

end Sys2Proof.Machine
end

section
/-! PROOF. Payload characters and hexadecimal digits (O4, O8, O9). -/

namespace Sys2Proof.Machine

theorem isPayloadChar_iff (b : Byte) :
    isPayloadChar b = true ↔ b = 0x00 ∨ (0x20 ≤ b.toNat ∧ b.toNat ≤ 0x7E) := by
  simp [isPayloadChar, nul, payloadLo, payloadHi]

theorem isPayloadChar_ofNat {n : Nat} (h : n < 256) :
    isPayloadChar (BitVec.ofNat 8 n) = true ↔ n = 0 ∨ (0x20 ≤ n ∧ n ≤ 0x7E) := by
  rw [isPayloadChar_iff, ← BitVec.toNat_inj, BitVec.toNat_ofNat, Nat.mod_eq_of_lt h]
  rfl

/-- Of codes other than 0 none outside the printable range is a payload character's. -/
theorem filter_payload_eq_nil {a k : Nat} (ha : 0 < a) (hk : a + k ≤ 256) (h : a + k ≤ 0x20 ∨ 0x7F ≤ a) :
    (List.range' a k).filter (fun n => isPayloadChar (BitVec.ofNat 8 n)) = [] := by
  refine List.filter_eq_nil_iff.2 fun n hn => ?_
  rw [List.mem_range'_1] at hn
  rw [isPayloadChar_ofNat (by omega)]
  omega

/-- Every code in the printable range is a payload character's. -/
theorem filter_payload_eq_self {a k : Nat} (ha : 0x20 ≤ a) (hk : a + k ≤ 0x7F) :
    (List.range' a k).filter (fun n => isPayloadChar (BitVec.ofNat 8 n)) = List.range' a k := by
  refine List.filter_eq_self.2 fun n hn => ?_
  rw [List.mem_range'_1] at hn
  rw [isPayloadChar_ofNat (by omega)]
  omega

/-- The payload characters in order: NUL, and the 95 from space to tilde (R80). -/
theorem payloadChars_eq :
    ((List.range 256).filter fun n => isPayloadChar (BitVec.ofNat 8 n)) = 0 :: List.range' 0x20 95 := by
  have hsplit : List.range 256 = 0 :: (List.range' 1 31 ++ List.range' 0x20 95 ++ List.range' 0x7F 129) := by
    rw [List.range'_append_1, List.range'_append_1, List.range_eq_range', List.range'_succ]
  rw [hsplit, List.filter_cons_of_pos (by rfl), List.filter_append, List.filter_append,
    filter_payload_eq_nil (by decide) (by decide) (by decide), filter_payload_eq_self (by decide) (by decide),
    filter_payload_eq_nil (by decide) (by decide) (by decide), List.nil_append, List.append_nil]

/-- Settles O4: the list of the payload characters has 96 members. -/
theorem payloadCharacterSet : Obligations.PayloadCharacterSet := by
  refine ⟨isPayloadChar_iff, ?_, rfl, rfl⟩
  rw [payloadChars_eq, List.length_cons, List.length_range']

theorem hexChar_toNat_of_le {n : BitVec 4} (h : n.toNat ≤ 9) : (hexChar n).toNat = 0x30 + n.toNat := by
  rw [hexChar, if_pos (by omega)]
  bv_omega

theorem hexChar_toNat_of_ge {n : BitVec 4} (h : 10 ≤ n.toNat) : (hexChar n).toNat = 0x41 + (n.toNat - 10) := by
  rw [hexChar, if_neg (by omega)]
  bv_omega

/-- Settles O8: the two ranges of R86. -/
theorem hexDigitCharacters : Obligations.HexDigitCharacters :=
  ⟨fun _ h => hexChar_toNat_of_le h, fun _ h => hexChar_toNat_of_ge h⟩

/-- The two digits are those of the two base-16 places of the byte, the more significant first (R87). -/
theorem hex2_eq (c : Byte) :
    hex2 c = [hexChar (BitVec.ofNat 4 (c.toNat / 16)), hexChar (BitVec.ofNat 4 (c.toNat % 16))] := by
  have hhi : c.extractLsb' 4 4 = BitVec.ofNat 4 (c.toNat / 16) := by
    rw [BitVec.extractLsb', Nat.shiftRight_eq_div_pow]
  have hlo : c.extractLsb' 0 4 = BitVec.ofNat 4 (c.toNat % 16) := by
    apply BitVec.eq_of_toNat_eq
    simp
  rw [hex2, hhi, hlo]

theorem hex2_injective {c c' : Byte} (h : hex2 c = hex2 c') : c = c' := by
  rw [hex2_eq, hex2_eq, List.cons.injEq, List.cons.injEq] at h
  obtain ⟨hhi, hlo, -⟩ := h
  have hhi := hexChar_injective _ _ hhi
  have hlo := hexChar_injective _ _ hlo
  bv_omega

theorem ne_delim_and_ne_sep_of_mem_hex2 {c x : Byte} (h : x ∈ hex2 c) : x ≠ delim ∧ x ≠ sep := by
  obtain rfl | rfl := List.mem_pair.1 h
  · exact hexChar_ne _
  · exact hexChar_ne _

/-- Settles O9: each digit names its half of the byte. -/
theorem checksumDigitsNameTheByte : Obligations.ChecksumDigitsNameTheByte :=
  ⟨hex2_eq, fun _ _ h => hex2_injective h, fun _ _ h => ne_delim_and_ne_sep_of_mem_hex2 h⟩

end Sys2Proof.Machine
end

section
/-! PROOF. The two wire formats as instructions (O17, O18). -/

namespace Sys2Proof.Machine

theorem transmit_result_of_ok {s : State} {ws : List WriteDraw} (f : List Byte) (h : s.chan.writes = .ok :: ws) :
    (transmit f s).host.result = some .ok := by
  obtain ⟨-, -, -, -, -, -, hresult⟩ := transmit_spec f s
  rw [hresult, chanWrite_ok f h]
  rfl

theorem transmit_result_of_error {s : State} {n : Nat} {ws : List WriteDraw} (f : List Byte)
    (h : s.chan.writes = .error n :: ws) : (transmit f s).host.result = some .transportWrite := by
  obtain ⟨-, -, -, -, -, -, hresult⟩ := transmit_spec f s
  rw [hresult, chanWrite_error f h]
  rfl

/-- Settles O17: the word is one transmission of its bytes. -/
theorem out18GoesOut : Obligations.Out18GoesOut := by
  intro s b h l c d hb hx f
  obtain ⟨hblk, hpending, hanswers, hclock, hhost, hout, -⟩ := transmit_spec f s
  exact ⟨transmit f s, exec_out18_next.2 ⟨hb, hx, rfl⟩, hblk, hpending, hanswers, hclock, hhost,
    fun sp i => by rw [hblk], hout, fun ws => transmit_result_of_ok f, fun n ws => transmit_result_of_error f⟩

/-- Settles O18: the word is one arrival of its bytes. -/
theorem in20Arrives : Obligations.In20Arrives := by
  intro s b s1 s2 s3 k s4 h l c d
  refine ⟨exec_in20_next.2 rfl, fun sp i t ht => ?_⟩
  rw [exec_in20_next.1 ht, peerSends_blk]

end Sys2Proof.Machine
end

section
/-! PROOF. What a line of the script comes to: refused issues, words, and `CHK` (O41, O47, O48, O51). -/

namespace Sys2Proof.Machine

/-! ### Refused issues -/

theorem whenFree_of_busy {s : State} (k : Result) (h : s.blk.busy = true) : whenFree s k = .refused .busy :=
  if_pos h

/-- Settles O41: the three operations stand behind the issue guard. -/
theorem reservedAndBusyAreRefused : Obligations.ReservedAndBusyAreRefused :=
  ⟨exec_reserved, fun _ h => ⟨whenFree_of_busy _ h, whenFree_of_busy _ h, whenFree_of_busy _ h⟩⟩

/-! ### Words -/

theorem fetched_cons {s : State} {m : Move} {rest : List Move} (i : Instr) (hl : s.host.script = m :: rest) :
    fetched i s = { s with blk := { s.blk with op := (opCode i).getD s.blk.op }
                           host := { s.host with script := rest } } := by
  obtain ⟨hblk, hchan, hfree, hhost⟩ := fetched_frame i s
  rw [hl, List.tail_cons] at hhost
  rw [← hblk, ← hchan, ← hfree, ← hhost]

theorem step_word {s : State} {bytes : List Byte} {rest : List Move} {i : Instr}
    (hl : s.host.script = .word bytes :: rest) (hd : decode bytes = .ok i) :
    step s = exec i { s with blk := { s.blk with op := (opCode i).getD s.blk.op }
                             host := { s.host with script := rest } } := by
  rw [step_cons hl, runMove, runWord, hd, ← fetched_cons i hl]

/-- Settles O47: one clause per kind of line. -/
theorem stepRunsTheDecodedInstruction : Obligations.StepRunsTheDecodedInstruction := by
  refine ⟨fun s bytes rest i => step_word, fun s rest hl => ?_, fun s rest bid cmd dat echo ed hl => ?_,
    fun s bytes rest e hl hd => ?_⟩
  · rw [step_cons hl, runMove, popScript_cons hl]
  · rw [step_cons hl, runMove, popScript_cons hl]
  · rw [step_cons hl, runMove, runWord, hd]

theorem decode_of_decodeTableWord {nbits w : Nat} {i : Instr} (h : decodeTableWord nbits w = some i) :
    decode (tableBytes nbits w) = .ok i := by
  unfold decodeTableWord at h
  split at h <;> cases h
  assumption

/-- Settles O48: the placed word is the head of the script. -/
theorem placedWordIsFetched : Obligations.PlacedWordIsFetched :=
  fun s nbits w _ h => step_word (s := s.withFetchWord nbits w) rfl (decode_of_decodeTableWord h)

/-! ### `CHK` -/

section
variable {s : State} {rest : List Move} {c : Check} {more : List Check}
  (hl : s.host.script = .act (.chk c more) :: rest) (hb : s.blk.busy = false) (hx : s.host.exchange = none)
include hl hb hx

theorem step_chk_of_no_response (hr : s.blk.response? = none) : step s = .refused .noResponse := by
  rw [step_act hl, hostAct, whenFree_of_free (s := popScript s) _ hb hx, withResponse, popScript_blk, hr]

/-- A `CHK` line on a response: the host keeps the result of its checks, and nothing else changes but the script. -/
theorem step_chk_of_response {r : Response} (hr : s.blk.response? = some r) :
    step s = .next { s with
      host := { s.host with script := rest }.returns (checkAll (c :: more) s.blk.aBid r) } := by
  rw [step_act hl, hostAct, whenFree_of_free (s := popScript s) _ hb hx, withResponse, popScript_blk, hr,
    popScript_cons hl]

end

/-- One check in the meaning of R213 to R217. -/
theorem checkResult_eq (k : Check) (boardId : List Byte) (r : Response) :
    checkResult k boardId r = match k with
      | .bid => if boardId.head? = some r.bid then .ok else .boardMismatch
      | .code => if r.code = 0x30 then .ok else .deviceRejected r.code
      | .cmd e => if r.cmd = e then .ok else .commandMismatch
      | .dat d => if r.dat = d then .ok else .echoMismatch := by
  cases k <;> simp [checkResult, boardMatches, codeAccepted, echoMatches, dataMatches, codeOk]

/-- Each check has one error (R213 to R217). -/
theorem checkResult_of_fails {k : Check} {boardId : List Byte} {r : Response} (h : checkResult k boardId r ≠ .ok) :
    checkResult k boardId r = match k with
      | .bid => .boardMismatch
      | .code => .deviceRejected r.code
      | .cmd _ => .commandMismatch
      | .dat _ => .echoMismatch := by
  cases k <;> exact if_neg fun hpass => h (if_pos hpass)

/-- The host keeps the code of a rejection, and no other failed check touches `REJ_CODE` (R216). -/
theorem returns_of_fails {k : Check} {boardId : List Byte} {r : Response} (h : checkResult k boardId r ≠ .ok)
    (x : HostSide) : x.returns (checkResult k boardId r) = { x with
      result := some (checkResult k boardId r), rejCode := if k = .code then r.code else x.rejCode } := by
  rw [checkResult_of_fails h]
  cases k <;> rfl

/-- Settles O51: the result of the line is that of `checkAll`, whose checks are those of R213 to R217. -/
theorem chkMakesItsChecksInOrder : Obligations.ChkMakesItsChecksInOrder := by
  intro s rest c more hl hb hx
  refine ⟨fun hv => step_chk_of_no_response hl hb hx (Block.response?_of_invalid hv), fun r hv hr => ?_⟩
  intro one outcome
  have hone : one = fun k => checkResult k s.blk.aBid r := funext fun k => (checkResult_eq k s.blk.aBid r).symm
  have hstep := step_chk_of_response hl hb hx (Block.response?_of_valid hv hr)
  rw [hone]
  refine ⟨fun hall => ?_, fun pre k post hcs hpre hk => ?_⟩
  · have hok := checkAll_append hall []
    rw [List.append_nil] at hok
    rw [hstep, hok]
    rfl
  · rw [hstep, hcs, checkAll_append hpre, checkAll_cons_of_fails hk, returns_of_fails hk]

end Sys2Proof.Machine
end

section
/-! PROOF. The running sum and the checksum (O5, O6, O7). -/

namespace Sys2Proof.Machine

/-! ### The running sum -/

/-- 257 is the last length at which 255 a byte fits 16 bits (R111, R116). -/
theorem sumRegister_toNat_of_length_le {s : List Byte} (h : s.length ≤ 257) :
    (sumRegister s).toNat = regionSum s := by
  have hle := regionSum_le s
  rw [sumRegister_toNat, Nat.mod_eq_of_lt (by omega)]

/-- The register is blind to the order of the bytes, wrapped or not. -/
theorem sumRegister_perm {s s' : List Byte} (h : s.Perm s') : sumRegister s = sumRegister s' := by
  apply BitVec.eq_of_toNat_eq
  rw [sumRegister_toNat, sumRegister_toNat, regionSum_perm h]

/-- Settles O5: the exact sum of up to 257 bytes fits the register. -/
theorem runningSumIsExact : Obligations.RunningSumIsExact :=
  ⟨fun _ h => sumRegister_toNat_of_length_le h, rfl, fun _ _ h => sumRegister_perm h, rfl⟩

/-! ### The checksum as a formula -/

theorem checksum_of_regionSum {s : List Byte} {n : Nat} (h : regionSum s = n) :
    checksum s = BitVec.ofNat 8 (rawChecksum n % 256).toNat := by
  rw [checksum_eq, h]

theorem regionSum_replicate_zero (n : Nat) : regionSum (List.replicate n 0x00) = 0 :=
  (regionSum_replicate n 0x00).trans (Nat.mul_zero n)

/-- The digits of what the encoder builds are those of its first 15 bytes (R134). -/
theorem digits_of_encodeFrame {b c d f : List Byte} (h : encodeFrame b c d = .ok f) :
    slice f 15 17 = hex2 (checksum (slice f 0 15)) :=
  (frameOk_of_encodeFrame h).digits

/-- The digits of what the decoder accepts are those of its first 17 bytes (R193, R194). -/
theorem digits_of_decodeResponse {raw : List Byte} {r : Response} (h : decodeResponse raw = .ok r) :
    slice raw 17 19 = hex2 (checksum (slice raw 0 17)) := by
  obtain ⟨hlen, hdigits, -⟩ := decodeResponse_ok.1 h
  rw [slice_pair (by omega), hdigits]

/-- Settles O6: the formula on the exact sum, and the digits of both directions. -/
theorem checksumIsTheFormula : Obligations.ChecksumIsTheFormula :=
  ⟨checksum_toNat_eq, rfl, fun n => checksum_of_regionSum (regionSum_replicate_zero n),
    checksum_of_regionSum (regionSum_replicate 17 0xFF), fun _ _ _ _ => digits_of_encodeFrame,
    fun _ _ => digits_of_decodeResponse⟩

/-! ### The closed forms of the checksum -/

/-- The two halves of a sum, added (R113). -/
def sumHalves (s : List Byte) : Nat := sumHi (regionSum s) + sumLo (regionSum s)

theorem sumHalves_le (s : List Byte) : sumHalves s ≤ 510 := by
  have hhi := sumHi_lt (regionSum s)
  have hlo := sumLo_lt (regionSum s)
  rw [sumHalves]
  omega

theorem checksum_toNat_sumHalves (s : List Byte) :
    ((checksum s).toNat : Int) = (255 - (sumHalves s : Int)) % 256 := by
  rw [checksum_toNat_eq, rawChecksum, sumHalves, Nat.cast_add]

/-- No carry: the raw value is the checksum. -/
theorem checksum_toNat_of_sumHalves_le {s : List Byte} (h : sumHalves s ≤ 255) :
    (checksum s).toNat = 255 - sumHalves s := by
  have hraw := checksum_toNat_sumHalves s
  omega

/-- A carry: the raw value is negative, and the modulus adds 256 once. -/
theorem checksum_toNat_of_le_sumHalves {s : List Byte} (h : 256 ≤ sumHalves s) :
    (checksum s).toNat = 511 - sumHalves s := by
  have hraw := checksum_toNat_sumHalves s
  have hle := sumHalves_le s
  omega

/-- The checksum is the complement of the halves' sum with its carry cut off. -/
theorem checksum_eq_not (s : List Byte) : checksum s = ~~~ BitVec.ofNat 8 (sumHalves s) := by
  apply BitVec.eq_of_toNat_eq
  rw [BitVec.toNat_not, BitVec.toNat_ofNat]
  have hraw := checksum_toNat_sumHalves s
  omega

/-- Settles O7: one closed form on each side of the carry. -/
theorem checksumClosedForms : Obligations.ChecksumClosedForms :=
  fun s => ⟨sumHalves_le s, checksum_toNat_of_sumHalves_le, checksum_toNat_of_le_sumHalves, checksum_eq_not s⟩

end Sys2Proof.Machine
end

section
/-! PROOF. What `ENC` answers, what it depends on and what it leaves unchanged (O10, O11, O12, O13). -/

namespace Sys2Proof.Machine

/-! ### `ENC` by what the encoder answers -/

section
variable {s : State}

theorem enc_of_ok {f : List Byte} (h : encodeFrame s.blk.aBid s.blk.aCmd s.blk.aDat = .ok f) :
    enc s = s.mapBlock (Block.installFrame f) := by
  rcases enc_cases s with ⟨g, hg, he⟩ | ⟨e, -, hg, -⟩ <;> cases h.symm.trans hg
  exact he

theorem enc_of_error {e : ResultCode} (h : encodeFrame s.blk.aBid s.blk.aCmd s.blk.aDat = .error e) :
    enc s = s.mapBlock (Block.dropFrame e) := by
  rcases enc_cases s with ⟨f, hf, -⟩ | ⟨e', -, hf, he⟩ <;> cases h.symm.trans hf
  exact he

variable (hb : s.blk.busy = false) (hx : s.host.exchange = none)
include hb hx

theorem exec_enc_of_ok {f : List Byte} (h : encodeFrame s.blk.aBid s.blk.aCmd s.blk.aDat = .ok f) :
    exec .enc s = .next (s.mapBlock (Block.installFrame f)) :=
  exec_enc_next.2 ⟨hb, hx, (enc_of_ok h).symm⟩

theorem exec_enc_of_error {e : ResultCode} (h : encodeFrame s.blk.aBid s.blk.aCmd s.blk.aDat = .error e) :
    exec .enc s = .next (s.mapBlock (Block.dropFrame e)) :=
  exec_enc_next.2 ⟨hb, hx, (enc_of_error h).symm⟩

end

/-- Settles O10: the encoder accepts the operands, and its answer is the frame of the statement. -/
theorem encBuildsTheFrame : Obligations.EncBuildsTheFrame := by
  intro s hb hx hbid hcmd hdat hpayload region frame
  have hframe : frame.length = 18 :=
    (outFrame_length s.blk.aBid s.blk.aCmd s.blk.aDat).trans (by rw [hbid, hcmd, hdat])
  have hregion : region.length = 15 :=
    (outRegion_length s.blk.aBid s.blk.aCmd s.blk.aDat).trans (by rw [hbid, hcmd, hdat])
  exact ⟨hframe, hregion, exec_enc_of_ok hb hx (encodeFrame_good ⟨hbid, hcmd, hdat⟩ hpayload),
    fun i => readByte_installFrame frame i s.blk⟩

/-- Settles O12: the encoder refuses the operands, a wrong length before a wrong character. -/
theorem encFailureLeavesNoFrame : Obligations.EncFailureLeavesNoFrame :=
  fun _ hb hx => ⟨fun hlen => exec_enc_of_error hb hx (encodeFrame_badLength hlen),
    fun hlen hbad => exec_enc_of_error hb hx (encodeFrame_badChar hlen hbad)⟩

/-- Settles O11: the second failure of O12 writes this `STATUS`. -/
theorem encRejectsBadCharacters : Obligations.EncRejectsBadCharacters :=
  fun s x hb hx hbid hcmd hdat hmem hbad =>
    ⟨_, (encFailureLeavesNoFrame s hb hx).2 ⟨hbid, hcmd, hdat⟩ ⟨x, hmem, hbad⟩, rfl⟩

/-! ### What `ENC` depends on and what it leaves (R136) -/

/-- States that agree on the three operands get the same frame or the same error. -/
theorem enc_congr {s s' : State} (hbid : s.blk.aBid = s'.blk.aBid) (hcmd : s.blk.aCmd = s'.blk.aCmd)
    (hdat : s.blk.aDat = s'.blk.aDat) : (enc s).blk.txbuf = (enc s').blk.txbuf
      ∧ (enc s).blk.txv = (enc s').blk.txv ∧ (enc s).blk.status = (enc s').blk.status := by
  rcases enc_cases s with ⟨f, hf, he⟩ | ⟨e, -, hf, he⟩ <;> rw [hbid, hcmd, hdat] at hf <;> rw [he]
  · rw [enc_of_ok hf]
    exact ⟨rfl, rfl, rfl⟩
  · rw [enc_of_error hf]
    exact ⟨rfl, rfl, rfl⟩

@[simp] theorem enc_free (s : State) : (enc s).free = s.free := by
  rcases enc_cases s with ⟨f, -, h⟩ | ⟨e, -, -, h⟩ <;> rw [h, State.mapBlock_free]

/-- Of the six spaces only `TXBUF` reads the registers that `ENC` writes. -/
theorem readByte_of_ne_txbuf {sp : Space} (h : sp ≠ .txbuf) (f : Option (List Byte)) (v : Bool) (c : ResultCode)
    (i : Nat) (b : Block) :
    readByte sp i { b with txbuf := f, txv := v, status := c } = readByte sp i b := by
  cases sp with
  | txbuf => exact absurd rfl h
  | argBid | argCmd | argDat | rxbuf | rsp => rfl

/-- Settles O13: the operands alone decide the result, and every step of `ENC` has the frame of `enc_blk`. -/
theorem encIsPure : Obligations.EncIsPure := by
  refine ⟨fun s t s' t' h h' hbid hcmd hdat => ?_, fun s t h => ?_⟩
  · obtain ⟨-, -, rfl⟩ := exec_enc_next.1 h
    obtain ⟨-, -, rfl⟩ := exec_enc_next.1 h'
    exact enc_congr hbid hcmd hdat
  · obtain ⟨hb, -, rfl⟩ := exec_enc_next.1 h
    have hbusy : (enc s).blk.busy = false := by rw [enc_blk]; exact hb
    refine ⟨hbusy, enc_blk s, enc_chan s, enc_host s, enc_free s, fun sp i hsp => ?_⟩
    rw [enc_blk]
    exact readByte_of_ne_txbuf hsp _ _ _ i s.blk

end Sys2Proof.Machine
end

section
/-! PROOF. The bytes of a built frame (O14). -/

namespace Sys2Proof.Machine

theorem byteAt_mem_slice {f : List Byte} {i n : Nat} (hi : i < n) (hn : n ≤ f.length) : byteAt f i ∈ slice f 0 n := by
  have hlen : i < f.length := by omega
  rw [byteAt, List.getD_eq_getElem f 0 hlen]
  exact List.mem_take_iff_getElem.2 ⟨i, by simp [hi, hlen], rfl⟩

/-- The operands stand in the frame at the indices of R83. -/
theorem outFrame_fields {b c d : List Byte} (hb : b.length = 1) (hc : c.length = 3) (hd : d.length = 8) :
    slice (outFrame b c d) 0 1 = b ∧ slice (outFrame b c d) 2 5 = c ∧ slice (outFrame b c d) 6 14 = d := by
  obtain ⟨_, rfl⟩ := List.length_eq_one_iff.1 hb
  obtain ⟨_, _, _, rfl⟩ := list_of_length_three hc
  obtain ⟨_, _, _, _, _, _, _, _, rfl⟩ := list_of_length_eight hd
  exact ⟨rfl, rfl, rfl⟩

/-- Settles O14: a built frame has the form of R137, and the operands in their places. -/
theorem builtFrameProperties : Obligations.BuiltFrameProperties := by
  intro bid cmd dat f h
  obtain ⟨hlen, ⟨hsep1, hsep5, hsep14⟩, hdelim, honly, hdigits, hpayload⟩ := frameOk_of_encodeFrame h
  obtain ⟨⟨hbid, hcmd, hdat⟩, -, rfl⟩ := encodeFrame_ok.1 h
  have hbefore : ∀ i, i < 17 → byteAt (outFrame bid cmd dat) i ≠ delim :=
    fun i hi => honly _ (byteAt_mem_slice hi (by rw [hlen]; decide))
  have hchars : ∀ i, i < 15 → isPayloadChar (byteAt (outFrame bid cmd dat) i) = true :=
    fun i hi => hpayload _ (byteAt_mem_slice hi (by rw [hlen]; decide))
  exact ⟨hlen, hsep1, hsep5, hsep14, hdelim, hbefore, hdigits, hchars, outFrame_fields hbid hcmd hdat⟩

end Sys2Proof.Machine
end

section
/-! PROOF. `SEND` with a frame in `TXBUF` and without one (O15, O16). -/

namespace Sys2Proof.Machine

section
variable {s : State} (hb : s.blk.busy = false) (hx : s.host.exchange = none)
include hb hx

/-- A valid frame of 18 bytes is what `SEND` transmits (R150). -/
theorem exec_send_of_frame {f : List Byte} (hv : s.blk.txv = true) (hf : s.blk.txbuf = some f)
    (hlen : f.length = outLen) : exec .send s = .next (transmit f s) :=
  exec_send_next.2 ⟨hb, hx, f, memRead_txbuf hv hf hlen, rfl⟩

theorem exec_send_of_no_frame (hnone : s.blk.frame? = none) : exec .send s = .refused .noFrame := by
  have hread : memRead .txbuf 0 outLen s.blk = none := by rw [memRead, spaceBytes, hnone, Option.bind_none]
  rw [exec, execSend, whenFree_of_free _ hb hx, withFrame, hread]

end

/-- Settles O15: the step is one transmission of the frame that `TXBUF` holds. -/
theorem sendIsAllOrError : Obligations.SendIsAllOrError := by
  intro s f hb hx hv hf hlen
  obtain ⟨hblk, hpending, hanswers, hclock, hhost, hout, -⟩ := transmit_spec f s
  exact ⟨transmit f s, exec_send_of_frame hb hx hv hf hlen, hblk, hpending, hanswers, hclock, hhost,
    fun sp i => by rw [hblk], hout, fun ws => transmit_result_of_ok f, fun n ws => transmit_result_of_error f⟩

/-- Settles O16: without `TXV` the space `TXBUF` holds no value to read. -/
theorem sendNeedsAFrame : Obligations.SendNeedsAFrame :=
  fun _ hb hx hv => exec_send_of_no_frame hb hx (Block.frame?_of_invalid hv)

end Sys2Proof.Machine
end

section
/-! PROOF. The start step of `RCV`, and one iteration by its sample and the answer of the channel (O20 to O25). -/

namespace Sys2Proof.Machine

/-! ### The start step (O20) -/

/-- Of the six spaces only `RXBUF` and `RSP` read the registers that the start step writes. -/
theorem readByte_startReceive {sp : Space} (hbuf : sp ≠ .rxbuf) (hrsp : sp ≠ .rsp) (i : Nat) (b : Block) :
    readByte sp i b.startReceive = readByte sp i b := by
  cases sp with
  | rxbuf => exact absurd rfl hbuf
  | rsp => exact absurd rfl hrsp
  | argBid | argCmd | argDat | txbuf => rfl

/-- Settles O20: where nothing is in flight the start step is the whole of the issue. -/
theorem rcvStarts : Obligations.RcvStarts :=
  fun s hb hx => ⟨startReceive s, exec_rcv_next.2 ⟨hb, hx, rfl⟩, rfl, rfl, rfl, rfl,
    fun _ i hbuf hrsp => readByte_startReceive hbuf hrsp i s.blk⟩

/-! ### A step of a receive with no line left and a scripted sample -/

/-- What a read finds pending: where the channel has reported an error, a free value (U3, log 9). -/
def inboundStream (s : State) : List Byte :=
  if s.chan.suspect then Config.freePending s.free else s.chan.pending

/-- The machine whose check has passed on the sample `e` and whose read is about to take from the stream; `es` and
`ds` are the samples and the answers left (R167). -/
def atRead (e : Nat) (es : List Nat) (ds : List ReadDraw) (s : State) : State := { s with
  blk := Block.sampleTime e s.blk
  chan := { s.chan with clock := es, answers := ds, pending := inboundStream s }
  free := if s.chan.suspect then s.free + 1 else s.free }

/-- The byte decides what becomes of the block, and nothing else changes (R170). -/
theorem receiveByte_eq (b : Byte) (s : State) : receiveByte b s = { s with
    blk := if b = delim then Block.endReceive .complete .ok (Block.appendByte b s.blk)
           else Block.appendByte b s.blk } := by
  unfold receiveByte
  split <;> rfl

section
variable {s : State} {e : Nat} {es : List Nat} (hs : s.host.script = []) (hr : s.blk.rxState = .reading)
  (hc : s.chan.clock = e :: es)
include hs hr

theorem step_iterate : step s = iterate s := (step_nil hs).trans (turn_reading hr)

include hc

/-- A sample that keeps the law of R165 is followed by the check and at most one read. -/
theorem step_of_sample (hl : s.blk.rxLastE ≤ e) : step s = .next (iterateAt e { s with chan.clock := es }) :=
  (step_iterate hs hr).trans (iterate_of_clock hc hl)

/-- A passed check is followed by a read that goes as the channel's script says. -/
theorem step_of_read {d : ReadDraw} {ds : List ReadDraw} (hl : s.blk.rxLastE ≤ e) (ht : e < s.blk.rxTmo)
    (ha : s.chan.answers = d :: ds) :
    step s = .next (afterRead (readStream d (atRead e es ds s)).1 (readStream d (atRead e es ds s)).2) := by
  have hread : chanRead (({ s with chan.clock := es } : State).mapBlock (Block.sampleTime e))
      = readStream d (atRead e es ds s) := chanRead_scripted ha
  rw [step_of_sample hs hr hc hl, iterateAt_read (by exact ht), hread]

end

/-- With no line left and nothing in flight a step changes nothing (R261). -/
theorem step_idle {s : State} (hs : s.host.script = []) (hr : s.blk.rxState ≠ .reading)
    (hx : s.host.exchange = none) : step s = .next s := (step_nil hs).trans (turn_idle hr hx)

/-! ### One iteration (O21 to O25) -/

/-- Settles O21: the read takes the first byte of the stream, and the byte decides whether the receive is over. -/
theorem receivedByteIsAppended : Obligations.ReceivedByteIsAppended := by
  intro s e es arrivals ds b rest hs hr hc hl ht ha stream hb
  rw [step_of_read hs hr hc hl ht ha, readStream_ready (s := atRead e es ds s) hb]
  exact congrArg Host.Outcome.next (receiveByte_eq b _)

/-- Settles O22: the error leaves the block outside `Reading`, so that without an exchange the next turn is idle. -/
theorem readErrorFailsTheReceive : Obligations.ReadErrorFailsTheReceive := by
  intro s e es ds hs hr hc hl ht ha
  refine ⟨_, step_of_read hs hr hc hl ht ha, rfl, rfl, rfl, rfl, rfl, rfl, fun htrusted => ?_, rfl, fun hx => ?_⟩
  · show inboundStream s = s.chan.pending
    rw [inboundStream, htrusted]
    rfl
  · have hover : RxState.failed ≠ .reading := by decide
    exact step_idle hs hover hx

/-- Settles O23: both ways a read gives no byte leave the machine where the read found it. -/
theorem noByteGoesOn : Obligations.NoByteGoesOn := by
  intro s e es d ds hs hr hc hl ht ha stream hnone
  have hread : readStream d (atRead e es ds s) = (.noByte, atRead e es ds s) := by
    rcases hnone with rfl | ⟨rfl, hempty⟩
    · rfl
    · exact readStream_empty hempty
  rw [step_of_read hs hr hc hl ht ha, hread]
  rfl

/-- Settles O24: the check comes before the read. -/
theorem timeoutMakesNoRead : Obligations.TimeoutMakesNoRead := by
  intro s e es hs hr hc hl ht
  rw [step_of_sample hs hr hc hl, iterateAt_timeout (by exact ht)]
  rfl

/-- Settles O25: the sample the iteration draws is the scripted one. -/
theorem timeMayNotRunBackwards : Obligations.TimeMayNotRunBackwards := by
  intro s e es hs hr hc hl
  rw [step_iterate hs hr]
  exact iterate_fault.2 ⟨by rw [elapsed_of_clock hc]; exact hl, rfl⟩

end Sys2Proof.Machine
end

section
/-! PROOF. The transitions of the receiver over every step (O26). -/

namespace Sys2Proof.Machine

/-- The transitions of R161 that a step other than the reset event makes. -/
def RxTransition (b c : Block) : Prop :=
  c.rxState = b.rxState
  ∨ (b.rxState ≠ .reading ∧ c.rxState = .reading ∧ c.status = b.status)
  ∨ (b.rxState = .reading ∧ ((c.rxState = .complete ∧ c.status = .ok)
      ∨ (c.rxState = .timedOut ∧ c.status = .timeoutError)
      ∨ (c.rxState = .failed ∧ c.status = .transportRead)))

/-- Of the instructions only `RCV` writes `RX_STATE`, and it does not write `STATUS` (R163). -/
theorem exec_rxState {i : Instr} {s t : State} (h : exec i s = .next t) :
    t.blk.rxState = s.blk.rxState
    ∨ (s.blk.busy = false ∧ t.blk.rxState = .reading ∧ t.blk.status = s.blk.status) := by
  cases i with
  | enc => obtain ⟨-, -, rfl⟩ := exec_enc_next.1 h; exact .inl (by rw [enc_blk])
  | rcv => obtain ⟨hb, -, rfl⟩ := exec_rcv_next.1 h; exact .inr ⟨hb, rfl, rfl⟩
  | dec => obtain ⟨-, -, -, rfl⟩ := exec_dec_next.1 h; exact .inl (by rw [dec_blk])
  | reserved => rw [exec_reserved] at h; cases h
  | send => obtain ⟨-, -, f, -, rfl⟩ := exec_send_next.1 h; exact .inl (by rw [(transmit_spec f s).1])
  | out18 => obtain ⟨-, -, rfl⟩ := exec_out18_next.1 h; exact .inl (by rw [(transmit_spec _ s).1])
  | in20 => obtain rfl := exec_in20_next.1 h; exact .inl rfl
  | exec => obtain ⟨-, -, rfl⟩ := exec_exec_next.1 h; exact .inl rfl

theorem Inv.rxTransition_of_exec {i : Instr} {s t : State} (hi : Inv s) (h : exec i s = .next t) :
    RxTransition s.blk t.blk :=
  (exec_rxState h).imp_right fun ⟨hb, hst⟩ => .inl ⟨hi.block.not_reading (.inl hb), hst⟩

/-- Of an exchange only the phase that issues `RCV` writes `RX_STATE`. -/
theorem exchangeTurn_rxState {x : Exchange} {s t : State} (h : exchangeTurn x s = .next t) :
    t.blk.rxState = s.blk.rxState ∨ (t.blk.rxState = .reading ∧ t.blk.status = s.blk.status) := by
  rcases exchangeTurn_next h with
    ⟨-, rfl⟩ | ⟨-, f, -, rfl⟩ | ⟨-, rfl⟩ | ⟨-, rfl⟩ | ⟨-, -, rfl⟩ | ⟨-, r, -, rfl⟩
  · rw [onStatus_blk, enc_blk]; exact .inl rfl
  · rw [(sendPhase_cases x f s).1]; exact .inl rfl
  · exact .inr ⟨rfl, rfl⟩
  · rw [onStatus_blk]; exact .inl rfl
  · rw [onStatus_blk, dec_blk]; exact .inl rfl
  · rw [(conclude_frame x r s).1]; exact .inl rfl

theorem turn_rxTransition {s t : State} (h : turn s = .next t) : RxTransition s.blk t.blk := by
  rcases turn_next h with ⟨hr, h⟩ | ⟨hr, x, -, h⟩ | ⟨-, -, rfl⟩
  · obtain ⟨-, rfl⟩ := iterate_next.1 h
    have hreading : (elapsed s).2.blk.rxState = .reading := by rw [elapsed_blk, hr]
    exact (iterateAt_await hreading).imp (fun hst => hst.trans hr.symm) fun hend => .inr ⟨hr, hend⟩
  · exact (exchangeTurn_rxState h).imp_right fun hst => .inl ⟨hr, hst⟩
  · exact .inl rfl

/-- Of the acts of the world only the reset event writes `RX_STATE` (R260). -/
theorem hostAct_rxState {a : HostAct} {s t : State} (h : hostAct a s = .next t) :
    t.blk.rxState = s.blk.rxState ∨ (t.blk.rxState = .idle ∧ t.blk.status = .ok ∧ a = .reset) := by
  rcases hostAct_next h with ⟨v, -, rfl⟩ | ⟨v, -, rfl⟩ | ⟨v, -, rfl⟩ | ⟨n, -, rfl⟩ | ⟨c, more, r, -, -, -, -, rfl⟩
    | ⟨r, v, -, -, rfl⟩ | ⟨bytes, -, rfl⟩ | ⟨rfl, rfl⟩
  case inr.inr.inr.inr.inr.inr.inr => exact .inr ⟨rfl, rfl, rfl⟩
  all_goals exact .inl rfl

/-- Settles O26: the lines of the script one by one. -/
theorem receiverTransitions : Obligations.ReceiverTransitions := by
  intro s t hi h
  suffices hs : RxTransition s.blk t.blk
      ∨ (t.blk.rxState = .idle ∧ t.blk.status = .ok ∧ ∃ rest, s.host.script = .act .reset :: rest) by
    simpa only [RxTransition, or_assoc] using hs
  rcases step_next h with ⟨_, _, i, -, -, h⟩ | ⟨_, -, h⟩ | ⟨_, _, _, _, _, _, -, h⟩ | ⟨a, rest, hl, h⟩ | ⟨-, h⟩ | ⟨-, h⟩
    | ⟨-, rfl⟩
  · have hst := (hi.of_fetched i).rxTransition_of_exec h
    rw [(fetched_frame i s).1] at hst
    exact .inl hst
  · exact .inl (hi.of_popScript.rxTransition_of_exec h)
  · exact .inl (hi.of_popScript.rxTransition_of_exec h)
  · rcases hostAct_rxState h with hst | ⟨hst, hok, rfl⟩
    · exact .inl (.inl hst)
    · exact .inr ⟨hst, hok, rest, hl⟩
  · exact .inl (turn_rxTransition h)
  · exact .inl (turn_rxTransition (s := popScript s) h)
  · exact .inl (.inl rfl)

end Sys2Proof.Machine
end

section
/-! PROOF. When a receive times out (O31), and that it does (O32). -/

namespace Sys2Proof.Machine

/-! ### Never early (O31) -/

/-- A receive that a step ends in `TimedOut` has failed its check on the sample it then holds. -/
theorem rxTmo_le_of_timedOut {b c : Block} (h : BlockEffect b c) (hr : b.rxState = .reading)
    (ht : c.rxState = .timedOut) : b.rxTmo ≤ c.rxLastE ∧ c.rxTmo = b.rxTmo := by
  cases h with
  | timedOut e _ _ htmo => exact ⟨htmo, rfl⟩
  | op | operands | encoded | notEncoded | silent | appended | decoded | notDecoded => cases hr.symm.trans ht
  | started | failed | completed | reset => cases ht

/-- Settles O31: the last sample of a receive in progress is below the timeout, or it is the start step's 0. -/
theorem timeoutNeverEarly : Obligations.TimeoutNeverEarly := by
  intro s t hi h hr ht
  obtain ⟨hsample, htmo⟩ := rxTmo_le_of_timedOut (step_effect h) hr ht
  have hlast := hi.block.readingTime hr
  exact ⟨hsample, htmo, by omega⟩

/-! ### The receive ends (O32) -/

theorem iterateAt_clock (e : Nat) (s : State) : (iterateAt e s).chan.clock = s.chan.clock := by
  rcases iterateAt_cases e s with ⟨-, h⟩ | ⟨-, b, h, -⟩ <;> rw [h]
  exact (chanRead_frame _).2.2.1

theorem iterateAt_rxLastE (e : Nat) (s : State) : (iterateAt e s).blk.rxLastE = e := by
  rcases iterateAt_cases e s with ⟨-, h⟩ | ⟨-, b, h, ⟨-, rfl⟩ | ⟨-, rfl⟩ | ⟨-, rfl⟩ | ⟨x, -, -, rfl⟩⟩ <;> rw [h] <;> rfl

theorem iterateAt_rxTmo (e : Nat) (s : State) : (iterateAt e s).blk.rxTmo = s.blk.rxTmo := by rw [iterateAt_blk]

/-- A receive goes on only where its check has passed. -/
theorem lt_rxTmo_of_iterateAt_reading {e : Nat} {s : State} (h : (iterateAt e s).blk.rxState = .reading) :
    e < s.blk.rxTmo := by
  by_contra hle
  rw [iterateAt_timeout (Nat.not_lt.1 hle)] at h
  cases h

/-- One iteration: the receive is over, or it goes on with the rest of the samples, its check passed. -/
theorem step_over_or_on {s : State} {e : Nat} {es : List Nat} (hs : s.host.script = [])
    (hr : s.blk.rxState = .reading) (hc : s.chan.clock = e :: es) (hl : s.blk.rxLastE ≤ e) :
    ∃ t, step s = .next t ∧ (t.blk.rxState ≠ .reading ∨ (e < s.blk.rxTmo ∧ t.blk.rxState = .reading
      ∧ t.host.script = [] ∧ t.chan.clock = es ∧ t.blk.rxLastE = e ∧ t.blk.rxTmo = s.blk.rxTmo)) := by
  refine ⟨_, step_of_sample hs hr hc hl, ?_⟩
  by_cases hon : (iterateAt e { s with chan.clock := es }).blk.rxState = .reading
  · have hpassed := lt_rxTmo_of_iterateAt_reading hon
    exact .inr ⟨hpassed, hon, by rw [iterateAt_host]; exact hs, iterateAt_clock _ _, iterateAt_rxLastE _ _,
      iterateAt_rxTmo _ _⟩
  · exact .inl hon

/-- Settles O32: by induction on the samples left; each step takes one, and a receive that goes on has not met the one
that reaches the timeout. -/
theorem receiveEndsWhenTimeAdvances : Obligations.ReceiveEndsWhenTimeAdvances := by
  intro s k hs hr hrise hreach
  obtain ⟨m, hm, htmo⟩ := hreach
  generalize hclock : s.chan.clock = clock at hrise hm
  induction clock generalizing s k with
  | nil => cases hm
  | cons e es ih =>
    obtain ⟨hlast, hes⟩ := List.pairwise_cons.1 hrise
    obtain ⟨t, hstep, hover | ⟨hpassed, hrt, hst, hct, hlastE, htmoKept⟩⟩ :=
      step_over_or_on hs hr hclock (hlast e List.mem_cons_self)
    · exact ⟨1, t, by omega, run_succ hstep, hover⟩
    · cases k with
      | zero => cases hm; omega
      | succ k =>
        obtain ⟨n, u, hn, hrun, hu⟩ := ih t k hst hrt (htmoKept ▸ htmo) hct (hlastE ▸ hes) hm
        exact ⟨n + 1, u, by omega, (run_succ hstep).trans hrun, hu⟩

end Sys2Proof.Machine
end

section
/-! PROOF. The turn of the machine and the lines that take it (O49). -/

namespace Sys2Proof.Machine

section
variable {s : State} {rest : List Move}

theorem step_turn (h : s.host.script = .turn :: rest) : step s = turn { s with host.script := rest } := by
  rw [step_cons h, ← popScript_cons h]
  rfl

theorem inFlight_iff : inFlight s = true ↔ s.blk.rxState = .reading ∨ s.host.exchange.isSome = true := by
  rw [inFlight, Bool.or_eq_true, beq_iff_eq]

theorem step_wait_of_inFlight (h : s.host.script = .wait :: rest)
    (hf : s.blk.rxState = .reading ∨ s.host.exchange.isSome = true) : step s = turn s := by
  rw [step_cons h]
  exact if_pos (inFlight_iff.2 hf)

theorem step_wait_of_free (h : s.host.script = .wait :: rest) (hr : s.blk.rxState ≠ .reading)
    (hx : s.host.exchange = none) : step s = .next { s with host.script := rest } := by
  have hf : ¬ inFlight s = true := by simp [inFlight_iff, hr, hx]
  rw [step_cons h, ← popScript_cons h]
  exact if_neg hf

end

/-- Settles O49: the turn by what is in flight, and then the lines that take it. -/
theorem turnsOfTheMachine : Obligations.TurnsOfTheMachine :=
  fun _ => ⟨turn_reading, fun _ => turn_exchange, turn_idle, step_nil, fun _ => step_turn,
    fun _ h => ⟨step_wait_of_inFlight h, step_wait_of_free h⟩⟩

end Sys2Proof.Machine
end

section
/-! PROOF. The sequences that `Decode` accepts, and the fields it gives back (O33, O40). -/

namespace Sys2Proof.Machine

/-! ### Bytes and slices of a sequence that goes on -/

theorem byteAt_append_left {p q : List Byte} {i : Nat} (h : i < p.length) : byteAt (p ++ q) i = byteAt p i :=
  List.getD_append p q 0 i h

theorem slice_append_left {p q : List Byte} {a b : Nat} (h : b ≤ p.length) : slice (p ++ q) a b = slice p a b := by
  rw [slice, slice, ← List.drop_take, ← List.drop_take, List.take_append_of_le_length h]

theorem slice_append_right {p q : List Byte} {a b : Nat} (hp : p.length = a) (hq : q.length = b - a) :
    slice (p ++ q) a b = q := by
  rw [slice, List.drop_left' hp, ← hq, List.take_length]

/-! ### The accepted sequences -/

/-- A region of 17 bytes, its two digits and any last byte are accepted, with the fields of the region (R195). -/
theorem decodeResponse_append {p : List Byte} (hp : p.length = 17) (x : Byte) :
    decodeResponse (p ++ hex2 (checksum p) ++ [x])
      = .ok ⟨byteAt p 0, slice p 2 5, slice p 6 14, byteAt p 15⟩ := by
  have hlen : (p ++ hex2 (checksum p) ++ [x]).length = 20 := by simp [hp]
  have hregion : slice (p ++ (hex2 (checksum p) ++ [x])) 0 17 = p :=
    (slice_append_left hp.ge).trans (slice_append_right (p := []) rfl hp)
  have hdigits : slice (p ++ hex2 (checksum p) ++ [x]) 17 19 = hex2 (checksum p) :=
    (slice_append_left (by simp [hp])).trans (slice_append_right hp rfl)
  rw [slice_pair (by omega)] at hdigits
  rw [List.append_assoc] at hlen hdigits ⊢
  rw [decodeResponse_good hlen (by rw [hregion, hdigits]), byteAt_append_left (by omega), byteAt_append_left (by omega),
    slice_append_left (by omega), slice_append_left (by omega)]

/-- A sequence of 20 bytes is its region, the two bytes of the digits and the last byte (R84). -/
theorem eq_region_append_of_length {raw : List Byte} (hlen : raw.length = 20) :
    raw = slice raw 0 17 ++ [byteAt raw 17, byteAt raw 18] ++ [byteAt raw 19] := by
  have hlast : raw.drop 19 = [byteAt raw 19] := by
    rw [drop_eq_byteAt_cons (by omega), List.drop_of_length_le hlen.le]
  rw [← slice_pair (by omega), ← hlast, List.append_assoc, ← drop_eq_slice_append raw (by decide),
    ← drop_eq_slice_append raw (by decide), List.drop_zero]

/-- Settles O33: an accepted sequence is its own region with the digits of it, and such a sequence is accepted. -/
theorem decodeChecksOnlyLengthAndDigits : Obligations.DecodeChecksOnlyLengthAndDigits := by
  refine fun raw r => ⟨fun h => ?_, ?_⟩
  · obtain ⟨hlen, hdigits, -⟩ := decodeResponse_ok.1 h
    have hraw := eq_region_append_of_length hlen
    rw [hdigits] at hraw
    have hp : (slice raw 0 17).length = 17 := by simp [slice, hlen]
    have hfields := decodeResponse_append hp (byteAt raw 19)
    rw [← hraw, h] at hfields
    exact ⟨_, _, hp, hraw, Except.ok.inj hfields⟩
  · rintro ⟨p, x, hp, rfl, rfl⟩
    exact decodeResponse_append hp x

/-- Settles O40: the region of a response has 17 bytes, its fields at the indices of R84. -/
theorem responseRoundTrip : Obligations.ResponseRoundTrip := by
  intro b s1 s2 s3 k s4 c d hc hd p
  obtain ⟨_, _, _, rfl⟩ := list_of_length_three hc
  obtain ⟨_, _, _, _, _, _, _, _, rfl⟩ := list_of_length_eight hd
  exact decodeResponse_append (p := p) rfl 0x0A

end Sys2Proof.Machine
end

section
/-! PROOF. What `DEC` answers, what it depends on and what it leaves unchanged (O34 to O39). -/

namespace Sys2Proof.Machine

/-! ### `DEC` by what the decoder answers -/

section
variable {s : State}

theorem dec_of_ok {r : Response} (h : decodeResponse s.blk.rxBuf = .ok r) :
    dec s = s.mapBlock (Block.installResponse r) := by
  rcases dec_cases s with ⟨q, hq, he⟩ | ⟨e, -, hq, -⟩ <;> cases h.symm.trans hq
  exact he

theorem dec_of_error {e : ResultCode} (h : decodeResponse s.blk.rxBuf = .error e) :
    dec s = s.mapBlock (Block.dropResponse e) := by
  rcases dec_cases s with ⟨r, hr, -⟩ | ⟨e', -, hr, he⟩ <;> cases h.symm.trans hr
  exact he

variable (hb : s.blk.busy = false) (hx : s.host.exchange = none)
include hb hx

theorem exec_dec_of_not_complete (hc : s.blk.rxState ≠ .complete) : exec .dec s = .refused .notComplete := by
  rw [exec, execDec, whenFree_of_free _ hb hx]
  exact if_neg hc

variable (hc : s.blk.rxState = .complete)
include hc

theorem exec_dec_of_ok {r : Response} (h : decodeResponse s.blk.rxBuf = .ok r) :
    exec .dec s = .next (s.mapBlock (Block.installResponse r)) :=
  exec_dec_next.2 ⟨hb, hx, hc, (dec_of_ok h).symm⟩

theorem exec_dec_of_error {e : ResultCode} (h : decodeResponse s.blk.rxBuf = .error e) :
    exec .dec s = .next (s.mapBlock (Block.dropResponse e)) :=
  exec_dec_next.2 ⟨hb, hx, hc, (dec_of_error h).symm⟩

end

/-- Settles O38: the precondition of `DEC` stands behind the issue guard. -/
theorem decNeedsACompleteReceive : Obligations.DecNeedsACompleteReceive :=
  fun _ => exec_dec_of_not_complete

/-! ### A successful `DEC` -/

/-- Settles O34: the decoder accepts the 20 bytes, and the fields stand at the offsets of R195. -/
theorem decExtractsTheFields : Obligations.DecExtractsTheFields := by
  intro s b s1 c0 c1 c2 s2 d0 d1 d2 d3 d4 d5 d6 d7 s3 k s4 h l x hb hx hc hbuf hdigits
  have hok : decodeResponse s.blk.rxBuf = .ok ⟨b, [c0, c1, c2], [d0, d1, d2, d3, d4, d5, d6, d7], k⟩ := by
    rw [hbuf]
    exact decodeResponse_good rfl hdigits
  exact ⟨_, exec_dec_of_ok hb hx hc hok, rfl, rfl, rfl⟩

/-- Settles O35: the step installs the response and leaves `RX_BUF` and `RX_STATE`, so the same step follows it. -/
theorem decSuccessWritesOnlyTheResponse : Obligations.DecSuccessWritesOnlyTheResponse := by
  intro s r hb hx hc hok
  have hagain : exec .dec (s.mapBlock (Block.installResponse r)) = .next (s.mapBlock (Block.installResponse r)) :=
    exec_dec_of_ok (s := s.mapBlock (Block.installResponse r)) hb hx hc hok
  exact ⟨_, exec_dec_of_ok hb hx hc hok, rfl, hagain, fun sp i hsp => readByte_installResponse_other hsp r i s.blk,
    fun i => readByte_installResponse r i s.blk⟩

/-! ### A failed `DEC` -/

/-- Settles O37: the decoder refuses the bytes, a wrong length before wrong digits. -/
theorem decFailureLeavesNoResponse : Obligations.DecFailureLeavesNoResponse := by
  refine fun s hb hx hc => ⟨fun hlen => exec_dec_of_error hb hx hc (decodeResponse_badLength hlen),
    fun hlen hdigits => ?_⟩
  rw [slice_pair (by omega)] at hdigits
  exact exec_dec_of_error hb hx hc (decodeResponse_badDigits hlen hdigits)

/-- Settles O36: the first failure of O37 writes this `STATUS`. -/
theorem decLengthIsCheckedFirst : Obligations.DecLengthIsCheckedFirst :=
  fun s hb hx hc hlen => ⟨_, (decFailureLeavesNoResponse s hb hx hc).1 hlen, rfl⟩

/-! ### What `DEC` depends on and what it leaves (R200) -/

/-- States that agree on `RX_BUF` get the same response or the same error. -/
theorem dec_congr {s s' : State} (hbuf : s.blk.rxBuf = s'.blk.rxBuf) :
    (dec s).blk.resp = (dec s').blk.resp ∧ (dec s).blk.rv = (dec s').blk.rv
      ∧ (dec s).blk.rTmo = (dec s').blk.rTmo ∧ (dec s).blk.status = (dec s').blk.status := by
  rcases dec_cases s with ⟨r, hr, he⟩ | ⟨e, -, hr, he⟩ <;> rw [hbuf] at hr <;> rw [he]
  · rw [dec_of_ok hr]
    exact ⟨rfl, rfl, rfl, rfl⟩
  · rw [dec_of_error hr]
    exact ⟨rfl, rfl, rfl, rfl⟩

/-- Settles O39: `RX_BUF` alone decides the result, and `DEC` leaves the channel and the host. -/
theorem decIsAFunctionOfTheBuffer : Obligations.DecIsAFunctionOfTheBuffer := by
  intro s t s' t' h h' hbuf
  obtain ⟨-, -, -, rfl⟩ := exec_dec_next.1 h
  obtain ⟨-, -, -, rfl⟩ := exec_dec_next.1 h'
  obtain ⟨hresp, hrv, hrTmo, hstatus⟩ := dec_congr hbuf
  exact ⟨hresp, hrv, hrTmo, hstatus, dec_chan s, dec_host s⟩

end Sys2Proof.Machine
end

section
/-! PROOF. A host and a time source that keep their duties never meet a stop (O59). -/

namespace Sys2Proof.Machine

/-! ### What the invariant and the duties give the preconditions -/

theorem hostFree_iff {s : State} : hostFree s = true ↔ s.blk.busy = false ∧ s.host.exchange = none := by
  simp [hostFree]

/-- The law of R165 holds of the next sample, scripted or free. -/
theorem rxLastE_le_elapsed {s : State} (hc : ClockLaw s = true) (hr : s.blk.rxState = .reading) :
    s.blk.rxLastE ≤ (elapsed s).1 := by
  cases h : s.chan.clock with
  | nil => exact elapsed_of_no_clock h
  | cons e es =>
    rw [elapsed_of_clock h]
    simpa [ClockLaw, h, hr] using hc

theorem BlockOk.exists_frame {b : Block} (hb : BlockOk b) (hv : b.txv = true) :
    ∃ f, b.txbuf = some f ∧ f.length = outLen := by
  obtain ⟨f, hf⟩ := Option.isSome_iff_exists.1 (hb.txv.symm.trans hv)
  exact ⟨f, hf, (hb.frame f hf).length⟩

theorem BlockOk.exists_memRead_txbuf {b : Block} (hb : BlockOk b) (hv : b.txv = true) :
    ∃ f, memRead .txbuf 0 outLen b = some f := by
  obtain ⟨f, hf, hlen⟩ := hb.exists_frame hv
  exact ⟨f, memRead_txbuf hv hf hlen⟩

theorem BlockOk.exists_response {b : Block} (hb : BlockOk b) (hv : b.rv = true) : ∃ r, b.response? = some r := by
  obtain ⟨r, hr⟩ := Option.isSome_iff_exists.1 (hb.rv.symm.trans hv)
  exact ⟨r, Block.response?_of_valid hv hr⟩

/-! ### Progress, one lemma for each thing a step can run -/

/-- No phase of an exchange meets a stop: its place says that what the phase reads is there (R210). -/
theorem Inv.exchangeTurn_progress {s : State} {x : Exchange} (hi : Inv s) (hx : s.host.exchange = some x) :
    ∃ t, exchangeTurn x s = .next t := by
  have hplace := hi.exchange x hx
  unfold exchangeTurn
  cases hp : x.phase <;> rw [hp] at hplace
  case encode | receive | await => exact ⟨_, rfl⟩
  case send =>
    obtain ⟨f, hf⟩ := hi.block.exists_memRead_txbuf hplace.2
    exact ⟨_, withFrame_next.2 ⟨f, hf, rfl⟩⟩
  case decode => exact ⟨_, whenComplete_next.2 ⟨hplace, rfl⟩⟩
  case validate =>
    obtain ⟨r, hr⟩ := hi.block.exists_response hplace
    exact ⟨_, withResponse_next.2 ⟨r, hr, rfl⟩⟩

theorem Inv.turn_progress {s : State} (hi : Inv s) (hc : ClockLaw s = true) : ∃ t, turn s = .next t := by
  by_cases hr : s.blk.rxState = .reading
  · rw [turn_reading hr]
    exact ⟨_, iterate_next.2 ⟨rxLastE_le_elapsed hc hr, rfl⟩⟩
  · cases hx : s.host.exchange with
    | none => exact ⟨s, turn_idle hr hx⟩
    | some x =>
      rw [turn_exchange hr hx]
      exact hi.exchangeTurn_progress hx

/-- An instruction issued under its duty runs (R219, R275). -/
theorem Inv.exec_progress {i : Instr} {s : State} (hi : Inv s) (hm : mayIssue i s = true) :
    ∃ t, exec i s = .next t := by
  cases i with
  | enc =>
    simp only [mayIssue, Bool.and_eq_true, hostFree_iff] at hm
    obtain ⟨⟨⟨⟨hb, hx⟩, -⟩, -⟩, -⟩ := hm
    exact ⟨_, exec_enc_next.2 ⟨hb, hx, rfl⟩⟩
  | rcv =>
    simp only [mayIssue, Bool.and_eq_true, hostFree_iff] at hm
    obtain ⟨⟨hb, hx⟩, -⟩ := hm
    exact ⟨_, exec_rcv_next.2 ⟨hb, hx, rfl⟩⟩
  | dec =>
    simp only [mayIssue, Bool.and_eq_true, hostFree_iff, beq_iff_eq] at hm
    obtain ⟨⟨hb, hx⟩, hcomplete⟩ := hm
    exact ⟨_, exec_dec_next.2 ⟨hb, hx, hcomplete, rfl⟩⟩
  | reserved => cases hm
  | send =>
    simp only [mayIssue, Bool.and_eq_true, hostFree_iff] at hm
    obtain ⟨⟨hb, hx⟩, hv⟩ := hm
    obtain ⟨f, hf⟩ := hi.block.exists_memRead_txbuf hv
    exact ⟨_, exec_send_next.2 ⟨hb, hx, f, hf, rfl⟩⟩
  | exec bid cmd dat echo ed =>
    obtain ⟨hb, hx⟩ := hostFree_iff.1 hm
    exact ⟨_, exec_exec_next.2 ⟨hb, hx, rfl⟩⟩
  | out18 b c d h l =>
    obtain ⟨hb, hx⟩ := hostFree_iff.1 hm
    exact ⟨_, exec_out18_next.2 ⟨hb, hx, rfl⟩⟩
  | in20 => exact ⟨_, exec_in20_next.2 rfl⟩

/-- An act done under its duty has a next state (R267, R275). -/
theorem Inv.hostAct_progress {a : HostAct} {s : State} (hi : Inv s) (hm : mayAct a s = true) :
    ∃ t, hostAct a s = .next t := by
  cases a with
  | setBid | setCmd | setDat | setTmo | peer | reset => exact ⟨_, rfl⟩
  | chk c more =>
    simp only [mayAct, Bool.and_eq_true, hostFree_iff] at hm
    obtain ⟨⟨hb, hx⟩, hv⟩ := hm
    obtain ⟨r, hr⟩ := hi.block.exists_response hv
    exact ⟨_, whenFree_next.2 ⟨hb, hx, withResponse_next.2 ⟨r, hr, rfl⟩⟩⟩
  | read r =>
    obtain ⟨v, hv⟩ := Option.isSome_iff_exists.1 hm
    exact ⟨{ s with host.seen := some v }, by simp only [hostAct, hv]⟩

/-- The duty of an issue does not speak of the script or `OP`. -/
theorem mayIssue_fetched (i : Instr) (s : State) : mayIssue i (fetched i s) = mayIssue i s := by
  cases i <;> rfl

theorem mayAct_popScript (a : HostAct) (s : State) : mayAct a (popScript s) = mayAct a s := by
  cases a <;> rfl

/-- A step taken under the duties is neither refused nor a fault. -/
theorem Inv.step_progress {s : State} (hi : Inv s) (hd : Duty s = true) (hc : ClockLaw s = true) :
    ∃ t, step s = .next t := by
  cases hs : s.host.script with
  | nil =>
    rw [step_nil hs]
    exact hi.turn_progress hc
  | cons m rest =>
    rw [step_cons hs]
    simp only [Duty, hs] at hd
    cases m with
    | word bytes =>
      cases hw : decode bytes with
      | error e => simp [hw] at hd
      | ok i =>
        simp only [hw] at hd
        rw [runMove, runWord, hw]
        exact (hi.of_fetched i).exec_progress ((mayIssue_fetched i s).trans hd)
    | send => exact hi.of_popScript.exec_progress (i := .send) hd
    | exec bid cmd dat echo ed => exact hi.of_popScript.exec_progress (i := .exec bid cmd dat echo ed) hd
    | act a => exact hi.of_popScript.hostAct_progress ((mayAct_popScript a s).trans hd)
    | turn => exact hi.of_popScript.turn_progress hc
    | wait =>
      rw [runMove]
      split
      · exact hi.turn_progress hc
      · exact ⟨_, rfl⟩

/-- Settles O59: by induction on the length of the run; each step has a next state, which meets the invariant again. -/
theorem dutifulRunsNeverStop : Obligations.DutifulRunsNeverStop := by
  intro n
  induction n with
  | zero => exact fun s hi _ => ⟨s, rfl, hi⟩
  | succ n ih =>
    rintro s hi ⟨hd, hc, hrest⟩
    obtain ⟨t, ht⟩ := hi.step_progress hd hc
    obtain ⟨u, hrun, hu⟩ := ih t (hi.of_step ht) (hrest t ht)
    exact ⟨u, (run_succ ht).trans hrun, hu⟩

end Sys2Proof.Machine
end

section
/-! PROOF. The start of an exchange, its phases step by step, where it stops, and its checks (O43, O44, O45). -/

namespace Sys2Proof.Machine

/-! ### The start (O43) -/

/-- Of the six spaces only the operands' own read the registers that an `EXEC` writes. -/
theorem readByte_startExchange {sp : Space} (hb : sp ≠ .argBid) (hc : sp ≠ .argCmd) (hd : sp ≠ .argDat) (i : Nat)
    (bid cmd dat echo : List Byte) (ed : Option (List Byte)) (s : State) :
    readByte sp i (startExchange bid cmd dat echo ed s).blk = readByte sp i s.blk := by
  cases sp with
  | argBid => exact absurd rfl hb
  | argCmd => exact absurd rfl hc
  | argDat => exact absurd rfl hd
  | txbuf | rxbuf | rsp => rfl

/-- Settles O43: on a free machine the issue is the start of the exchange. -/
theorem execTakesUpTheExchange : Obligations.ExecTakesUpTheExchange :=
  fun s bid cmd dat echo ed hb hx => ⟨startExchange bid cmd dat echo ed s, exec_exec_next.2 ⟨hb, hx, rfl⟩,
    rfl, rfl, rfl, rfl, rfl, rfl, rfl, fun _ i h1 h2 h3 => readByte_startExchange h1 h2 h3 i bid cmd dat echo ed s⟩

/-! ### Where a phase that succeeds leaves the machine -/

/-- The exchange has its frame and goes on to send it (R134). -/
def Exchange.encoded (x : Exchange) (f : List Byte) (s : State) : State :=
  advance .send x ((issue .enc s).mapBlock (Block.installFrame f))

/-- The frame has gone out, and the exchange goes on to receive; `ws` are the write outcomes left (R151). -/
def Exchange.sent (x : Exchange) (f : List Byte) (ws : List WriteDraw) (s : State) : State :=
  advance .receive x { s with
    chan := { s.chan with writes := ws, sent := s.chan.sent ++ f }, host := s.host.returns .ok }

/-- The receive has started under the fixed timeout, and the exchange awaits its end (R163, R212). -/
def Exchange.receiving (x : Exchange) (s : State) : State :=
  advance .await x (startReceive (issue .rcv (setTimeout Config.rxTimeout s)))

/-- The exchange has its response and goes on to check it (R198). -/
def Exchange.decoded (x : Exchange) (r : Response) (s : State) : State :=
  advance .validate x ((issue .dec s).mapBlock (Block.installResponse r))

/-! ### How a phase ends -/

section
variable {s : State} (x : Exchange)

theorem onStatus_of_ok (p : Phase) (h : s.blk.status = .ok) : onStatus p x s = advance p x s := if_pos h

theorem onStatus_of_error (p : Phase) {e : ResultCode} (h : s.blk.status = e) (he : e ≠ .ok) :
    onStatus p x s = endExchange e s := by
  subst h
  exact if_neg he

theorem onStatus_enc_of_ok (p : Phase) {f : List Byte}
    (h : encodeFrame s.blk.aBid s.blk.aCmd s.blk.aDat = .ok f) :
    onStatus p x (enc s) = advance p x (s.mapBlock (Block.installFrame f)) := by
  rw [enc_of_ok h]
  exact onStatus_of_ok x p rfl

theorem onStatus_enc_of_error (p : Phase) {e : ResultCode}
    (h : encodeFrame s.blk.aBid s.blk.aCmd s.blk.aDat = .error e) :
    onStatus p x (enc s) = endExchange e (s.mapBlock (Block.dropFrame e)) := by
  rw [enc_of_error h]
  exact onStatus_of_error x p rfl (by rcases encodeFrame_error h with rfl | rfl <;> decide)

theorem onStatus_dec_of_ok (p : Phase) {r : Response} (h : decodeResponse s.blk.rxBuf = .ok r) :
    onStatus p x (dec s) = advance p x (s.mapBlock (Block.installResponse r)) := by
  rw [dec_of_ok h]
  exact onStatus_of_ok x p rfl

theorem onStatus_dec_of_error (p : Phase) {e : ResultCode} (h : decodeResponse s.blk.rxBuf = .error e) :
    onStatus p x (dec s) = endExchange e (s.mapBlock (Block.dropResponse e)) := by
  rw [dec_of_error h]
  exact onStatus_of_error x p rfl (by rcases decodeResponse_error h with rfl | rfl <;> decide)

theorem sendPhase_of_ok (f : List Byte) {ws : List WriteDraw} (h : s.chan.writes = .ok :: ws) :
    sendPhase x f s = x.sent f ws s := by rw [sendPhase, chanWrite_ok f h, Exchange.sent]

theorem sendPhase_of_error (f : List Byte) {n : Nat} {ws : List WriteDraw} (h : s.chan.writes = .error n :: ws) :
    sendPhase x f s = endExchange .transportWrite (chanWrite f s).2 := by
  have hfail : chanWrite f s = (false, (chanWrite f s).2) := Prod.ext (chanWrite_error f h) rfl
  rw [sendPhase, hfail]

end

/-! ### The step of each phase, with no line left -/

section
variable {s : State} {x : Exchange} (hs : s.host.script = []) (hr : s.blk.rxState ≠ .reading)
  (hx : s.host.exchange = some x)
include hs hr hx

theorem step_exchange : step s = exchangeTurn x s := (step_nil hs).trans (turn_exchange hr hx)

theorem step_encode_of_ok (hp : x.phase = .encode) {f : List Byte}
    (h : encodeFrame s.blk.aBid s.blk.aCmd s.blk.aDat = .ok f) :
    step s = .next (x.encoded f s) := by
  rw [step_exchange hs hr hx, exchangeTurn, hp, Exchange.encoded, ← onStatus_enc_of_ok (s := issue .enc s) x .send h]

theorem step_encode_of_error (hp : x.phase = .encode) {e : ResultCode}
    (h : encodeFrame s.blk.aBid s.blk.aCmd s.blk.aDat = .error e) :
    step s = .next (endExchange e ((issue .enc s).mapBlock (Block.dropFrame e))) := by
  rw [step_exchange hs hr hx, exchangeTurn, hp, ← onStatus_enc_of_error (s := issue .enc s) x .send h]

theorem step_send (hp : x.phase = .send) {f : List Byte} (hf : memRead .txbuf 0 outLen s.blk = some f) :
    step s = .next (sendPhase x f s) := by
  rw [step_exchange hs hr hx, exchangeTurn, hp]
  exact withFrame_next.2 ⟨f, hf, rfl⟩

theorem step_send_of_ok (hp : x.phase = .send) {f : List Byte} (hf : memRead .txbuf 0 outLen s.blk = some f)
    {ws : List WriteDraw} (hw : s.chan.writes = .ok :: ws) :
    step s = .next (x.sent f ws s) := by
  rw [step_send hs hr hx hp hf, sendPhase_of_ok x f hw]

theorem step_send_of_error (hp : x.phase = .send) {f : List Byte} (hf : memRead .txbuf 0 outLen s.blk = some f)
    {n : Nat} {ws : List WriteDraw} (hw : s.chan.writes = .error n :: ws) :
    step s = .next (endExchange .transportWrite (chanWrite f s).2) := by
  rw [step_send hs hr hx hp hf, sendPhase_of_error x f hw]

theorem step_receive (hp : x.phase = .receive) : step s = .next (x.receiving s) := by
  rw [step_exchange hs hr hx, exchangeTurn, hp, Exchange.receiving]

theorem step_await_of_ok (hp : x.phase = .await) (h : s.blk.status = .ok) :
    step s = .next (advance .decode x s) := by
  rw [step_exchange hs hr hx, exchangeTurn, hp, ← onStatus_of_ok x .decode h]

theorem step_await_of_error (hp : x.phase = .await) {e : ResultCode} (h : s.blk.status = e) (he : e ≠ .ok) :
    step s = .next (endExchange e s) := by
  rw [step_exchange hs hr hx, exchangeTurn, hp, ← onStatus_of_error x .decode h he]

theorem step_decode (hp : x.phase = .decode) (hc : s.blk.rxState = .complete) :
    step s = .next (onStatus .validate x (dec (issue .dec s))) := by
  rw [step_exchange hs hr hx, exchangeTurn, hp]
  exact whenComplete_next.2 ⟨hc, rfl⟩

theorem step_decode_of_ok (hp : x.phase = .decode) (hc : s.blk.rxState = .complete) {r : Response}
    (h : decodeResponse s.blk.rxBuf = .ok r) :
    step s = .next (x.decoded r s) := by
  rw [step_decode hs hr hx hp hc, Exchange.decoded, ← onStatus_dec_of_ok (s := issue .dec s) x .validate h]

theorem step_decode_of_error (hp : x.phase = .decode) (hc : s.blk.rxState = .complete) {e : ResultCode}
    (h : decodeResponse s.blk.rxBuf = .error e) :
    step s = .next (endExchange e ((issue .dec s).mapBlock (Block.dropResponse e))) := by
  rw [step_decode hs hr hx hp hc, ← onStatus_dec_of_error (s := issue .dec s) x .validate h]

theorem step_validate (hp : x.phase = .validate) {r : Response} (h : s.blk.response? = some r) :
    step s = .next (conclude x r s) := by
  rw [step_exchange hs hr hx, exchangeTurn, hp]
  exact withResponse_next.2 ⟨r, h, rfl⟩

end

/-- An exchange that is over is followed by nothing (R211, R261). -/
theorem step_endExchange {s : State} (hs : s.host.script = []) (hr : s.blk.rxState ≠ .reading) (c : ResultCode) :
    step (endExchange c s) = .next (endExchange c s) := step_idle (s := endExchange c s) hs hr rfl

/-! ### The first failure (O44) -/

/-- Settles O44: each failure ends the exchange, and after its end a step changes nothing. -/
theorem exchangeStopsAtTheFirstFailure : Obligations.ExchangeStopsAtTheFirstFailure := by
  intro s x hi hs hr hx
  have hplace := hi.exchange x hx
  refine ⟨fun e hp he => ?encode, fun n ws hp hw => ?send, fun hp he => ?await, fun e hp he => ?decode⟩
  case encode =>
    exact ⟨_, step_encode_of_error hs hr hx hp he, rfl, rfl, rfl, rfl,
      step_endExchange (s := (issue .enc s).mapBlock (Block.dropFrame e)) hs hr e⟩
  case send =>
    rw [hp] at hplace
    obtain ⟨f, hf⟩ := hi.block.exists_memRead_txbuf hplace.2
    exact ⟨_, step_send_of_error hs hr hx hp hf hw, rfl, rfl, chanWrite_blk f s,
      step_endExchange (by rw [chanWrite_host]; exact hs) (by rw [chanWrite_blk]; exact hr) _⟩
  case await =>
    exact ⟨_, step_await_of_error hs hr hx hp rfl he, rfl, rfl, rfl, step_endExchange hs hr _⟩
  case decode =>
    rw [hp] at hplace
    have hrej : (s.host.returns e).rejCode = s.host.rejCode := by
      rcases decodeResponse_error he with rfl | rfl <;> rfl
    exact ⟨_, step_decode_of_error hs hr hx hp hplace he, rfl, rfl, rfl, hrej,
      step_endExchange (s := (issue .dec s).mapBlock (Block.dropResponse e)) hs hr e⟩

/-! ### The checks (O45) -/

theorem returns_returns (c : ResultCode) (h : HostSide) : (h.returns c).returns c = h.returns c := by
  cases c <;> rfl

/-- What an error of the host raises is what the host step returns (R235). -/
theorem raise_of_host {e : ResultCode} (h : 6 < e.code.toNat) (s : State) :
    raise e s = { s with host := s.host.returns e } := by
  cases e with
  | ok | invalidLength | invalidCharacter | transportRead | timeoutError | lengthMismatch | checksumMismatch =>
    exact absurd h (by decide)
  | transportWrite | boardMismatch | deviceRejected | commandMismatch | echoMismatch => rfl

section
variable {x : Exchange} {r : Response} (s : State)

theorem conclude_of_passed (h : validate x.boardId x.expectedCommandEcho x.expectedEchoData r = .ok) :
    conclude x r s = { endExchange .ok s with host.data := some r.dat } := by rw [conclude, h]

theorem conclude_of_failed {e : ResultCode} (h : validate x.boardId x.expectedCommandEcho x.expectedEchoData r = e)
    (he : e ≠ .ok) : conclude x r s = endExchange e s := by
  have hhost : 6 < e.code.toNat := by
    rw [← h]
    exact (checkAll_host _ _ _).resolve_left fun hok => he (h.symm.trans hok)
  have hraise : endExchange e (raise e s) = endExchange e s := by
    rw [raise_of_host hhost, endExchange, returns_returns, endExchange]
  rw [conclude, h]
  split
  · exact absurd rfl he
  · exact hraise

end

/-- The checks of an exchange in the comparisons of R213 to R217. -/
theorem validate_eq_ite (boardId echo : List Byte) (ed : Option (List Byte)) (r : Response) :
    validate boardId echo ed r
      = if boardId.head? ≠ some r.bid then .boardMismatch
        else if r.code ≠ 0x30 then .deviceRejected r.code
        else if r.cmd ≠ echo then .commandMismatch
        else if ∃ d, ed = some d ∧ r.dat ≠ d then .echoMismatch
        else .ok := by
  rw [validate_eq]
  cases ed <;> simp [boardMatches, codeAccepted, echoMatches, dataMatches, codeOk]

/-- Settles O45: one step, whose result is the first comparison that fails. -/
theorem checksInOrder : Obligations.ChecksInOrder := by
  intro s x r hs hr hx hp hv hresp
  have hstep := step_validate hs hr hx hp (Block.response?_of_valid hv hresp)
  obtain ⟨hblk, hchan, hover⟩ := conclude_frame x r s
  have hcheck := validate_eq_ite x.boardId x.expectedCommandEcho x.expectedEchoData r
  refine ⟨conclude x r s, hstep, hblk, hchan, hover, fun hb => ?board, fun hb hk => ?code, fun hb hk hc => ?command,
    fun d hb hk hc hd hne => ?data, fun hb hk hc hd => ?passed⟩
  case board =>
    rw [if_pos hb] at hcheck
    rw [conclude_of_failed s hcheck (by decide)]
    exact ⟨rfl, rfl, rfl⟩
  case code =>
    rw [if_neg (not_not.2 hb), if_pos hk] at hcheck
    rw [conclude_of_failed s hcheck ResultCode.noConfusion]
    exact ⟨rfl, rfl, rfl⟩
  case command =>
    rw [if_neg (not_not.2 hb), if_neg (not_not.2 hk), if_pos hc] at hcheck
    rw [conclude_of_failed s hcheck (by decide)]
    exact ⟨rfl, rfl, rfl⟩
  case data =>
    rw [if_neg (not_not.2 hb), if_neg (not_not.2 hk), if_neg (not_not.2 hc), if_pos ⟨d, hd, hne⟩] at hcheck
    rw [conclude_of_failed s hcheck (by decide)]
    exact ⟨rfl, rfl, rfl⟩
  case passed =>
    have hdata : ¬ ∃ d, x.expectedEchoData = some d ∧ r.dat ≠ d := by
      rintro ⟨d, hsome, hne⟩
      rcases hd with hd | hd <;> rw [hd] at hsome <;> cases hsome
      exact hne rfl
    rw [if_neg (not_not.2 hb), if_neg (not_not.2 hk), if_neg (not_not.2 hc), if_neg hdata] at hcheck
    rw [conclude_of_passed s hcheck]
    exact ⟨rfl, rfl, rfl⟩

end Sys2Proof.Machine
end

section
/-! PROOF. A whole exchange: the request goes out, the answer arrives byte by byte or not at all, and the exchange ends
with it (O46). -/

namespace Sys2Proof.Machine

/-! ### The request -/

/-- The exchange `x` has sent `frame` from `s` and awaits the answer: the receive has started and has neither checked
the time nor read from the channel. -/
structure AwaitsAnswer (x : Exchange) (frame : List Byte) (s u : State) : Prop where
  script : u.host.script = []
  exchange : u.host.exchange = some { x with phase := .await }
  data : u.host.data = s.host.data
  rxState : u.blk.rxState = .reading
  rxBuf : u.blk.rxBuf = []
  rxTmo : u.blk.rxTmo = Config.rxTimeout
  rxLastE : u.blk.rxLastE = 0
  rv : u.blk.rv = false
  sent : u.chan.sent = s.chan.sent ++ frame
  pending : u.chan.pending = s.chan.pending
  suspect : u.chan.suspect = s.chan.suspect
  clock : u.chan.clock = s.chan.clock
  answers : u.chan.answers = s.chan.answers

/-- Encode, send and the start of the receive, where the operands are valid and the write succeeds (R210). -/
theorem run_request {s : State} {x : Exchange} (hs : s.host.script = []) (hr : s.blk.rxState ≠ .reading)
    (hx : s.host.exchange = some x) (hp : x.phase = .encode) {f : List Byte}
    (hf : encodeFrame s.blk.aBid s.blk.aCmd s.blk.aDat = .ok f) {ws : List WriteDraw}
    (hw : s.chan.writes = .ok :: ws) :
    ∃ u, Host.Core.run core 3 s = .next u ∧ AwaitsAnswer x f s u := by
  have hread : memRead .txbuf 0 outLen (x.encoded f s).blk = some f :=
    memRead_txbuf rfl rfl (frameOk_of_encodeFrame hf).length
  have hencode := step_encode_of_ok hs hr hx hp hf
  have hsend := step_send_of_ok (s := x.encoded f s) hs hr rfl rfl hread hw
  have hreceive := step_receive (s := x.sent f ws (x.encoded f s)) hs hr rfl rfl
  exact ⟨_, (run_succ hencode).trans ((run_succ hsend).trans (run_succ hreceive)),
    ⟨hs, rfl, rfl, rfl, rfl, rfl, rfl, rfl, rfl, rfl, rfl, rfl, rfl⟩⟩

/-! ### The answer -/

/-- A byte that arrives on a clean and empty channel under a passed check (R170). -/
theorem step_of_byte {u : State} {e : Nat} {es : List Nat} {b : Byte} {ds : List ReadDraw} (hs : u.host.script = [])
    (hr : u.blk.rxState = .reading) (hc : u.chan.clock = e :: es) (hl : u.blk.rxLastE ≤ e) (ht : e < u.blk.rxTmo)
    (ha : u.chan.answers = .next [b] :: ds) (hsu : u.chan.suspect = false) (hpe : u.chan.pending = []) :
    step u = .next { u with
      blk := if b = delim then Block.endReceive .complete .ok (Block.appendByte b (Block.sampleTime e u.blk))
             else Block.appendByte b (Block.sampleTime e u.blk)
      chan := { u.chan with clock := es, answers := ds, pending := [] } } := by
  have hstep := receivedByteIsAppended u e es [b] ds b [] hs hr hc hl ht ha (by simp [hsu, hpe])
  rw [hsu] at hstep
  exact hstep

/-- The machine whose receive has ended with `raw`, its last sample `e`, and the draws `es` and `ds` left. -/
def received (raw : List Byte) (e : Nat) (es : List Nat) (ds : List ReadDraw) (u : State) : State := { u with
  blk := Block.endReceive .complete .ok { u.blk with rxBuf := raw, rxLastE := e }
  chan := { u.chan with clock := es, answers := ds, pending := [] } }

/-- A message that arrives one byte per read is received, one iteration per byte (R164, R170, R173): by induction on
its bytes before the delimiter. -/
theorem run_receive {p : List Byte} {es es' : List Nat} {ds : List ReadDraw} {u : State}
    (hs : u.host.script = []) (hr : u.blk.rxState = .reading) (hsu : u.chan.suspect = false)
    (hpe : u.chan.pending = []) (hd : delim ∉ p) (hc : u.chan.clock = es ++ es') (hn : es.length = p.length + 1)
    (hrise : (u.blk.rxLastE :: es).Pairwise (· ≤ ·)) (ht : ∀ e ∈ es, e < u.blk.rxTmo)
    (ha : u.chan.answers = ((p ++ [delim]).map fun b => .next [b]) ++ ds) :
    ∃ e, Host.Core.run core (p.length + 1) u = .next (received (u.blk.rxBuf ++ p ++ [delim]) e es' ds u) := by
  induction p generalizing u es with
  | nil =>
    obtain ⟨e, rfl⟩ := List.length_eq_one_iff.1 hn
    have hlast : u.blk.rxLastE ≤ e := List.rel_of_pairwise_cons hrise (by simp)
    have hstep := step_of_byte hs hr hc hlast (ht e (by simp)) ha hsu hpe
    rw [if_pos rfl] at hstep
    rw [List.append_nil]
    exact ⟨e, run_succ hstep⟩
  | cons b p ih =>
    obtain ⟨hb, hp⟩ := List.ne_and_not_mem_of_not_mem_cons hd
    cases es with
    | nil => cases hn
    | cons e es =>
      obtain ⟨hlast, hes⟩ := List.pairwise_cons.1 hrise
      have hstep := step_of_byte hs hr hc (hlast e (by simp)) (ht e (by simp)) ha hsu hpe
      rw [if_neg (Ne.symm hb)] at hstep
      obtain ⟨l, hrun⟩ := ih (es := es) (u := { u with
          blk := Block.appendByte b (Block.sampleTime e u.blk)
          chan := { u.chan with
            clock := es ++ es', answers := ((p ++ [delim]).map fun b => .next [b]) ++ ds, pending := [] } })
        hs hr hsu rfl hp rfl (Nat.succ.inj hn) hes (fun y hy => ht y (List.mem_cons_of_mem e hy)) rfl
      rw [List.append_cons u.blk.rxBuf b p]
      exact ⟨l, (run_succ hstep).trans hrun⟩

/-! ### The end -/

/-- The look at the status, the decoding and the checks, of a received answer that passes them all (R210, R218). -/
theorem run_conclude {v : State} {x : Exchange} {r : Response} (hs : v.host.script = [])
    (hc : v.blk.rxState = .complete) (hok : v.blk.status = .ok) (hx : v.host.exchange = some { x with phase := .await })
    (hd : decodeResponse v.blk.rxBuf = .ok r)
    (hv : validate x.boardId x.expectedCommandEcho x.expectedEchoData r = .ok) :
    ∃ w, Host.Core.run core 3 v = .next w ∧ w.host.exchange = none ∧ w.host.result = some .ok
      ∧ w.host.data = some r.dat ∧ w.chan = v.chan ∧ w.blk.rxState = .complete ∧ w.blk.rxBuf = v.blk.rxBuf
      ∧ w.blk.rv = true ∧ w.blk.status = .ok := by
  have hr : v.blk.rxState ≠ .reading := by simp [hc]
  have hawait := step_await_of_ok hs hr hx rfl hok
  have hdecode := step_decode_of_ok (s := advance .decode { x with phase := .await } v) hs hr rfl rfl hc hd
  have hend := step_validate (s := x.decoded r v) hs hr rfl rfl rfl
  rw [conclude_of_passed (x := { x with phase := .validate }) _ hv] at hend
  exact ⟨_, (run_succ hawait).trans ((run_succ hdecode).trans (run_succ hend)), rfl, rfl, rfl, rfl, hc, rfl, rfl, rfl⟩

/-- An exchange whose first check finds the timeout elapsed ends with no read made (R168, R211). -/
theorem run_timeout {x : Exchange} {f : List Byte} {s u : State} {e : Nat} {es : List Nat} (h : AwaitsAnswer x f s u)
    (hc : s.chan.clock = e :: es) (ht : Config.rxTimeout ≤ e) :
    ∃ w, Host.Core.run core 2 u = .next w ∧ w.host.exchange = none ∧ w.host.result = some .timeoutError
      ∧ w.host.data = u.host.data ∧ w.chan.sent = u.chan.sent ∧ w.chan.answers = u.chan.answers
      ∧ w.blk.rxState = .timedOut ∧ w.blk.rxBuf = u.blk.rxBuf ∧ w.blk.rv = u.blk.rv := by
  have hcheck := timeoutMakesNoRead u e es h.script h.rxState (h.clock.trans hc) (by simp [h.rxLastE]) (h.rxTmo ▸ ht)
  have hawait := step_await_of_error (s := { u with
      blk := { u.blk with rxLastE := e, rxState := .timedOut, busy := false, status := .timeoutError }
      chan := { u.chan with clock := es } }) h.script RxState.noConfusion h.exchange rfl rfl ResultCode.noConfusion
  exact ⟨_, (run_succ hcheck).trans (run_succ hawait), rfl, rfl, rfl, rfl, rfl, rfl, rfl, rfl⟩

/-! ### The whole exchange -/

/-- A matching answer passes the checks (R213 to R217). -/
theorem validate_matching (b : Byte) (echo rdat : List Byte) {ed : Option (List Byte)}
    (h : ed = none ∨ ed = some rdat) : validate [b] echo ed ⟨b, echo, rdat, 0x30⟩ = .ok := by
  rw [validate_eq_ite]
  rcases h with rfl | rfl <;> simp

theorem delim_not_mem_append_hex2 {p : List Byte} (h : ∀ x ∈ p, x ≠ 0x0A) (c : Byte) : delim ∉ p ++ hex2 c := by
  intro hm
  rcases List.mem_append.1 hm with hp | hx
  · exact h delim hp rfl
  · exact (ne_delim_and_ne_sep_of_mem_hex2 hx).1 rfl

/-- Settles O46: three steps send the request and start the receive; then 20 iterations receive the answer and three
steps conclude, or one iteration finds the timeout elapsed and one step ends the exchange. -/
theorem wholeExchange : Obligations.WholeExchange := by
  intro s b s1 s2 s3 s4 cmd dat echo rdat ed ws es es' ds hs hr hb hx hsu hpe hw hcmd hdat hpayload hecho hrdat hed
    region p raw hp hclock hn hrise hanswers
  have hframe := encodeFrame_good (b := [b]) ⟨rfl, hcmd, hdat⟩ hpayload
  obtain ⟨u, hrequest, hu⟩ := run_request (s := startExchange [b] cmd dat echo ed s) hs hr rfl rfl hframe hw
  have hsent : u.chan.sent = s.chan.sent ++ region ++ hex2 (checksum region) ++ [0x0A] := by
    rw [hu.sent, List.append_assoc, List.append_assoc, ← List.append_assoc region]
    rfl
  refine ⟨_, exec_exec_next.2 ⟨hb, hx, rfl⟩, fun ht => ?delivers, fun ht => ?timesOut⟩
  case delivers =>
    have hlen : (p ++ hex2 (checksum p)).length = 19 := by simp [p, hecho, hrdat]
    obtain ⟨e, hreceive⟩ := run_receive (es := es) hu.script hu.rxState (hu.suspect.trans hsu) (hu.pending.trans hpe)
      (delim_not_mem_append_hex2 hp (checksum p)) (hu.clock.trans hclock) (by rw [hn, hlen])
      (by rw [hu.rxLastE]; exact List.pairwise_cons.2 ⟨fun _ _ => Nat.zero_le _, hrise⟩)
      (by rw [hu.rxTmo]; exact ht) (hu.answers.trans hanswers)
    rw [hlen, hu.rxBuf] at hreceive
    obtain ⟨w, hend, hover, hresult, hdata, hchan, hstate, hbuf, hrv, hstatus⟩ :=
      run_conclude (v := received raw e es' ds u) hu.script rfl rfl hu.exchange
        (responseRoundTrip b s1 s2 s3 0x30 s4 echo rdat hecho hrdat) (validate_matching b echo rdat hed)
    exact ⟨w, (run_add (n := 23) hrequest).trans ((run_add (n := 3) hreceive).trans hend), hover, hresult, hdata,
      by rw [hchan]; exact hsent, hstate, hbuf, hrv, hstatus⟩
  case timesOut =>
    obtain ⟨e, es, rfl⟩ := List.exists_cons_of_length_eq_add_one hn
    obtain ⟨w, hend, hover, hresult, hdata, hout, hans, hstate, hbuf, hrv⟩ :=
      run_timeout hu hclock (ht e rfl)
    exact ⟨w, (run_add (n := 2) hrequest).trans hend, hover, hresult, hdata.trans hu.data, hout.trans hsent,
      hans.trans hu.answers, hstate, hbuf.trans hu.rxBuf, hrv.trans hu.rv⟩

end Sys2Proof.Machine
end

section
/-! PROOF. What the host may not issue while something is in flight (O42). -/

namespace Sys2Proof.Machine

theorem whenFree_of_exchange {s : State} (k : Result) (hb : s.blk.busy = false)
    (hx : s.host.exchange.isSome = true) : whenFree s k = .refused .exchangeInFlight := by
  rw [whenFree, hb, hx]
  rfl

/-- Every instruction but the peer's word and the reserved code stands behind the issue guard. -/
theorem exists_exec_eq_whenFree (s : State) {i : Instr}
    (hin : ∀ b s1 c s2 d s3 k s4 h l, i ≠ .in20 b s1 c s2 d s3 k s4 h l) (hres : i ≠ .reserved) :
    ∃ k, exec i s = whenFree s k := by
  cases i with
  | enc | rcv | dec | send | exec | out18 => exact ⟨_, rfl⟩
  | reserved => exact absurd rfl hres
  | in20 => exact absurd rfl (hin _ _ _ _ _ _ _ _ _ _)

/-- Settles O42: the guard refuses whatever stands behind it. -/
theorem oneExchangeAtATime : Obligations.OneExchangeAtATime := by
  intro s i hin hres
  obtain ⟨k, hk⟩ := exists_exec_eq_whenFree s hin hres
  rw [hk]
  exact ⟨whenFree_of_busy k, whenFree_of_exchange k⟩

end Sys2Proof.Machine
end
